-- ==== Sys2Proof/Word.lean ====
section
/-! DEFINITION. The words of the machine (00_scope.md R7, R9, R10): all unsigned, bit 0 least significant. -/

namespace Sys2Proof

/-- `u8`: a register or memory byte. -/
abbrev Byte := BitVec 8

/-- `u16`: an instruction word, the index register, the program counter, a return address. -/
abbrev Word := BitVec 16

/-- `u12`: an address operand `nnn`. -/
abbrev Addr := BitVec 12

/-- The number of a general register, 0..15 (10_state.md R16). -/
abbrev Reg := Fin 16

/-- The number of a key, 0..15 (10_state.md R27). -/
abbrev Key := Fin 16

/-- VF, `V[15]`: a general register and the flag register (10_state.md R17). -/
abbrev vf : Reg := 15

end Sys2Proof
end

