-- ==== Sys2Proof/Syntax.lean ====
section
/-! DEFINITION. The instruction set as syntax: one constructor for each of the 35 rows of the opcode table
(30_encoding.md R49), with the operands of R46 and R48. -/

namespace Sys2Proof

/-- The 35 instructions, in the order of 30_encoding.md R49. -/
inductive Instr where
  /-- 0nnn SYS nnn (R88). -/
  | sys (nnn : Addr)
  /-- 00E0 CLS (R97). -/
  | cls
  /-- 00EE RET (R86). -/
  | ret
  /-- 1nnn JP nnn (R84). -/
  | jp (nnn : Addr)
  /-- 2nnn CALL nnn (R85). -/
  | call (nnn : Addr)
  /-- 3xkk SE Vx, kk (R80). -/
  | seVxKk (x : Reg) (kk : Byte)
  /-- 4xkk SNE Vx, kk (R81). -/
  | sneVxKk (x : Reg) (kk : Byte)
  /-- 5xy0 SE Vx, Vy (R82). -/
  | seVxVy (x y : Reg)
  /-- 6xkk LD Vx, kk (R68). -/
  | ldVxKk (x : Reg) (kk : Byte)
  /-- 7xkk ADD Vx, kk (R69). -/
  | addVxKk (x : Reg) (kk : Byte)
  /-- 8xy0 LD Vx, Vy (R70). -/
  | ldVxVy (x y : Reg)
  /-- 8xy1 OR Vx, Vy (R71). -/
  | orVxVy (x y : Reg)
  /-- 8xy2 AND Vx, Vy (R72). -/
  | andVxVy (x y : Reg)
  /-- 8xy3 XOR Vx, Vy (R73). -/
  | xorVxVy (x y : Reg)
  /-- 8xy4 ADD Vx, Vy (R74). -/
  | addVxVy (x y : Reg)
  /-- 8xy5 SUB Vx, Vy (R75). -/
  | subVxVy (x y : Reg)
  /-- 8xy6 SHR Vx, Vy (R76). -/
  | shrVxVy (x y : Reg)
  /-- 8xy7 SUBN Vx, Vy (R77). -/
  | subnVxVy (x y : Reg)
  /-- 8xyE SHL Vx, Vy (R78). -/
  | shlVxVy (x y : Reg)
  /-- 9xy0 SNE Vx, Vy (R83). -/
  | sneVxVy (x y : Reg)
  /-- Annn LD I, nnn (R89). -/
  | ldINnn (nnn : Addr)
  /-- Bnnn JP V0, nnn (R87). -/
  | jpV0Nnn (nnn : Addr)
  /-- Cxkk RND Vx, kk (R105). -/
  | rndVxKk (x : Reg) (kk : Byte)
  /-- Dxyn DRW Vx, Vy, n (R96); `n` is a count of rows, 0..15. -/
  | drwVxVyN (x y : Reg) (n : Fin 16)
  /-- Ex9E SKP Vx (R99). -/
  | skpVx (x : Reg)
  /-- ExA1 SKNP Vx (R100). -/
  | sknpVx (x : Reg)
  /-- Fx07 LD Vx, DT (R102). -/
  | ldVxDt (x : Reg)
  /-- Fx0A LD Vx, K (R101). -/
  | ldVxK (x : Reg)
  /-- Fx15 LD DT, Vx (R103). -/
  | ldDtVx (x : Reg)
  /-- Fx18 LD ST, Vx (R104). -/
  | ldStVx (x : Reg)
  /-- Fx1E ADD I, Vx (R90). -/
  | addIVx (x : Reg)
  /-- Fx29 LD F, Vx (R94). -/
  | ldFVx (x : Reg)
  /-- Fx33 LD B, Vx (R93). -/
  | ldBVx (x : Reg)
  /-- Fx55 LD [I], Vx (R91). -/
  | ldMemIVx (x : Reg)
  /-- Fx65 LD Vx, [I] (R92). -/
  | ldVxMemI (x : Reg)
  deriving DecidableEq, Repr

/-- What a word decodes to: one of the 35 instructions, or the explicit `Unknown(w)` (30_encoding.md R50). -/
inductive Operation where
  | known (i : Instr)
  | unknown (w : Word)
  deriving DecidableEq, Repr

end Sys2Proof
end

