-- ==== Sys2Proof/Decode.lean ====
section
/-! DEFINITION. The decoder, total on every 16-bit word (30_encoding.md R50), and after it the encoder (R49, R53). -/

namespace Sys2Proof

/-! ### Fields (R46) -/

/-- `op = w[15:12]`. -/
def opField (w : Word) : BitVec 4 := w.extractLsb' 12 4

/-- `w[11:8]`, the field `x`, as bits. -/
def xField (w : Word) : BitVec 4 := w.extractLsb' 8 4

/-- `w[7:4]`, the field `y`, as bits. -/
def yField (w : Word) : BitVec 4 := w.extractLsb' 4 4

/-- `n = w[3:0]`, a sprite height or a minor opcode. -/
def nField (w : Word) : BitVec 4 := w.extractLsb' 0 4

/-- `kk = w[7:0]`, an immediate or a minor opcode. -/
def kkField (w : Word) : Byte := w.extractLsb' 0 8

/-- `nnn = w[11:0]`. -/
def nnnField (w : Word) : Addr := w.extractLsb' 0 12

/-- The register that the field `x` names. -/
def xReg (w : Word) : Reg := (xField w).toFin

/-- The register that the field `y` names. -/
def yReg (w : Word) : Reg := (yField w).toFin

/-- The sprite height of Dxyn. -/
def nRows (w : Word) : Fin 16 := (nField w).toFin

/-! ### The decoder -/

/-- The words with `op = 0`: the two fixed words first, every other one is SYS (R50, R52). -/
def decode0 (w : Word) : Operation :=
  if w = 0x00E0#16 then .known .cls
  else if w = 0x00EE#16 then .known .ret
  else .known (.sys (nnnField w))

/-- The words with `op = 8`: the minor opcode is the low nibble; 8..D and F are unknown (R51). -/
def decode8 (w : Word) : Operation :=
  match nField w with
  | 0x0#4 => .known (.ldVxVy (xReg w) (yReg w))
  | 0x1#4 => .known (.orVxVy (xReg w) (yReg w))
  | 0x2#4 => .known (.andVxVy (xReg w) (yReg w))
  | 0x3#4 => .known (.xorVxVy (xReg w) (yReg w))
  | 0x4#4 => .known (.addVxVy (xReg w) (yReg w))
  | 0x5#4 => .known (.subVxVy (xReg w) (yReg w))
  | 0x6#4 => .known (.shrVxVy (xReg w) (yReg w))
  | 0x7#4 => .known (.subnVxVy (xReg w) (yReg w))
  | 0xE#4 => .known (.shlVxVy (xReg w) (yReg w))
  | _ => .unknown w

/-- The words with `op = E`: the minor opcode is the low byte (R51). -/
def decodeE (w : Word) : Operation :=
  match kkField w with
  | 0x9E#8 => .known (.skpVx (xReg w))
  | 0xA1#8 => .known (.sknpVx (xReg w))
  | _ => .unknown w

/-- The words with `op = F`: the minor opcode is the low byte (R51). -/
def decodeF (w : Word) : Operation :=
  match kkField w with
  | 0x07#8 => .known (.ldVxDt (xReg w))
  | 0x0A#8 => .known (.ldVxK (xReg w))
  | 0x15#8 => .known (.ldDtVx (xReg w))
  | 0x18#8 => .known (.ldStVx (xReg w))
  | 0x1E#8 => .known (.addIVx (xReg w))
  | 0x29#8 => .known (.ldFVx (xReg w))
  | 0x33#8 => .known (.ldBVx (xReg w))
  | 0x55#8 => .known (.ldMemIVx (xReg w))
  | 0x65#8 => .known (.ldVxMemI (xReg w))
  | _ => .unknown w

/-- `decode : u16 -> Operation` (R50): total, with an explicit `Unknown(w)`. The last line is the word that no opcode
has, since the sixteen patterns above it are all the nibbles there are. -/
def decode (w : Word) : Operation :=
  match opField w with
  | 0x0#4 => decode0 w
  | 0x1#4 => .known (.jp (nnnField w))
  | 0x2#4 => .known (.call (nnnField w))
  | 0x3#4 => .known (.seVxKk (xReg w) (kkField w))
  | 0x4#4 => .known (.sneVxKk (xReg w) (kkField w))
  | 0x5#4 => if nField w = 0x0#4 then .known (.seVxVy (xReg w) (yReg w)) else .unknown w
  | 0x6#4 => .known (.ldVxKk (xReg w) (kkField w))
  | 0x7#4 => .known (.addVxKk (xReg w) (kkField w))
  | 0x8#4 => decode8 w
  | 0x9#4 => if nField w = 0x0#4 then .known (.sneVxVy (xReg w) (yReg w)) else .unknown w
  | 0xA#4 => .known (.ldINnn (nnnField w))
  | 0xB#4 => .known (.jpV0Nnn (nnnField w))
  | 0xC#4 => .known (.rndVxKk (xReg w) (kkField w))
  | 0xD#4 => .known (.drwVxVyN (xReg w) (yReg w) (nRows w))
  | 0xE#4 => decodeE w
  | 0xF#4 => decodeF w
  | _ => .unknown w

/-- The word of two bytes as they lie in memory, big endian: the byte at the lower address is bits 15..8
(20_memory.md R35). -/
def wordOfBytes (hi lo : Byte) : Word := hi ++ lo

/-- The high byte of a word, which lies at the lower address (R35). -/
def hiByte (w : Word) : Byte := w.extractLsb' 8 8

/-- The low byte of a word, which lies at the higher address (R35). -/
def loByte (w : Word) : Byte := w.extractLsb' 0 8

/-- Decoding the two bytes of an instruction as they lie in memory. -/
def decodeBytes (hi lo : Byte) : Operation := decode (wordOfBytes hi lo)

/-- The word that `w`, numbered as the opcode table numbers bits, stands for: the table's `nbits` bits of `w`, every bit
above them 0. A word of this machine is 16 bits, so bits of `w` from 16 on belong to no instruction (log entry 15). -/
def tableWord (nbits w : Nat) : Word := BitVec.ofNat 16 (w % 2 ^ nbits)

/-- The instruction the decoder reads from a word of the opcode table, laid out as memory holds it; none where it is
`Unknown`. -/
def decodeTableWord (nbits w : Nat) : Option Instr :=
  match decodeBytes (hiByte (tableWord nbits w)) (loByte (tableWord nbits w)) with
  | .known i => some i
  | .unknown _ => none

/-! ### The encoder (the formats of R47, the rows of R49) -/

/-- Format `FA`: `oooo aaaa aaaa aaaa`. -/
def formatFA (op : BitVec 4) (nnn : Addr) : Word := op ++ nnn

/-- Format `FXK`: `oooo xxxx kkkk kkkk`; `FX` is the same with a minor opcode for `kk`. -/
def formatFXK (op : BitVec 4) (x : Reg) (kk : Byte) : Word := op ++ (BitVec.ofFin x : BitVec 4) ++ kk

/-- Format `FXYN`: `oooo xxxx yyyy nnnn`; `FXY` is the same with a minor opcode for `n`. -/
def formatFXYN (op : BitVec 4) (x y : Reg) (n : BitVec 4) : Word :=
  op ++ (BitVec.ofFin x : BitVec 4) ++ (BitVec.ofFin y : BitVec 4) ++ n

/-- The word of an instruction (R49), the inverse of `decode` on the 35 forms (R53). -/
def encode : Instr → Word
  | .sys nnn => formatFA 0x0 nnn
  | .cls => 0x00E0
  | .ret => 0x00EE
  | .jp nnn => formatFA 0x1 nnn
  | .call nnn => formatFA 0x2 nnn
  | .seVxKk x kk => formatFXK 0x3 x kk
  | .sneVxKk x kk => formatFXK 0x4 x kk
  | .seVxVy x y => formatFXYN 0x5 x y 0x0
  | .ldVxKk x kk => formatFXK 0x6 x kk
  | .addVxKk x kk => formatFXK 0x7 x kk
  | .ldVxVy x y => formatFXYN 0x8 x y 0x0
  | .orVxVy x y => formatFXYN 0x8 x y 0x1
  | .andVxVy x y => formatFXYN 0x8 x y 0x2
  | .xorVxVy x y => formatFXYN 0x8 x y 0x3
  | .addVxVy x y => formatFXYN 0x8 x y 0x4
  | .subVxVy x y => formatFXYN 0x8 x y 0x5
  | .shrVxVy x y => formatFXYN 0x8 x y 0x6
  | .subnVxVy x y => formatFXYN 0x8 x y 0x7
  | .shlVxVy x y => formatFXYN 0x8 x y 0xE
  | .sneVxVy x y => formatFXYN 0x9 x y 0x0
  | .ldINnn nnn => formatFA 0xA nnn
  | .jpV0Nnn nnn => formatFA 0xB nnn
  | .rndVxKk x kk => formatFXK 0xC x kk
  | .drwVxVyN x y n => formatFXYN 0xD x y (BitVec.ofFin n : BitVec 4)
  | .skpVx x => formatFXK 0xE x 0x9E
  | .sknpVx x => formatFXK 0xE x 0xA1
  | .ldVxDt x => formatFXK 0xF x 0x07
  | .ldVxK x => formatFXK 0xF x 0x0A
  | .ldDtVx x => formatFXK 0xF x 0x15
  | .ldStVx x => formatFXK 0xF x 0x18
  | .addIVx x => formatFXK 0xF x 0x1E
  | .ldFVx x => formatFXK 0xF x 0x29
  | .ldBVx x => formatFXK 0xF x 0x33
  | .ldMemIVx x => formatFXK 0xF x 0x55
  | .ldVxMemI x => formatFXK 0xF x 0x65

/-! ### The opcode table as data (R49) -/

/-- One row of the table: a word `w` selects it when `w & mask = match` (SYS also excludes the words of CLS and RET). -/
structure OpcodeRow where
  pattern : Word
  mask    : Word
  deriving DecidableEq, Repr

/-- The row of R49 that an instruction belongs to. -/
def Instr.row : Instr → OpcodeRow
  | .sys _ => ⟨0x0000, 0xF000⟩
  | .cls => ⟨0x00E0, 0xFFFF⟩
  | .ret => ⟨0x00EE, 0xFFFF⟩
  | .jp _ => ⟨0x1000, 0xF000⟩
  | .call _ => ⟨0x2000, 0xF000⟩
  | .seVxKk _ _ => ⟨0x3000, 0xF000⟩
  | .sneVxKk _ _ => ⟨0x4000, 0xF000⟩
  | .seVxVy _ _ => ⟨0x5000, 0xF00F⟩
  | .ldVxKk _ _ => ⟨0x6000, 0xF000⟩
  | .addVxKk _ _ => ⟨0x7000, 0xF000⟩
  | .ldVxVy _ _ => ⟨0x8000, 0xF00F⟩
  | .orVxVy _ _ => ⟨0x8001, 0xF00F⟩
  | .andVxVy _ _ => ⟨0x8002, 0xF00F⟩
  | .xorVxVy _ _ => ⟨0x8003, 0xF00F⟩
  | .addVxVy _ _ => ⟨0x8004, 0xF00F⟩
  | .subVxVy _ _ => ⟨0x8005, 0xF00F⟩
  | .shrVxVy _ _ => ⟨0x8006, 0xF00F⟩
  | .subnVxVy _ _ => ⟨0x8007, 0xF00F⟩
  | .shlVxVy _ _ => ⟨0x800E, 0xF00F⟩
  | .sneVxVy _ _ => ⟨0x9000, 0xF00F⟩
  | .ldINnn _ => ⟨0xA000, 0xF000⟩
  | .jpV0Nnn _ => ⟨0xB000, 0xF000⟩
  | .rndVxKk _ _ => ⟨0xC000, 0xF000⟩
  | .drwVxVyN _ _ _ => ⟨0xD000, 0xF000⟩
  | .skpVx _ => ⟨0xE09E, 0xF0FF⟩
  | .sknpVx _ => ⟨0xE0A1, 0xF0FF⟩
  | .ldVxDt _ => ⟨0xF007, 0xF0FF⟩
  | .ldVxK _ => ⟨0xF00A, 0xF0FF⟩
  | .ldDtVx _ => ⟨0xF015, 0xF0FF⟩
  | .ldStVx _ => ⟨0xF018, 0xF0FF⟩
  | .addIVx _ => ⟨0xF01E, 0xF0FF⟩
  | .ldFVx _ => ⟨0xF029, 0xF0FF⟩
  | .ldBVx _ => ⟨0xF033, 0xF0FF⟩
  | .ldMemIVx _ => ⟨0xF055, 0xF0FF⟩
  | .ldVxMemI _ => ⟨0xF065, 0xF0FF⟩

end Sys2Proof
end

