-- ==== Sys2Proof/Config.lean ====
section
/-! DEFINITION. What an implementation fixes (the parameters of 00_scope.md R8) and the free values of the spec. -/

namespace Sys2Proof

/-- `QSHIFT`: the source register of 8xy6 and 8xyE (41_alu.md R66). -/
inductive QShift where
  | vx
  | vy
  deriving DecidableEq, Repr

/-- `QMEMI`: what Fx55 and Fx65 do to I (44_memory_index.md R91, R92). -/
inductive QMemI where
  | unchanged
  | plusXPlus1
  | plusX
  deriving DecidableEq, Repr

/-- `QJUMP`: the offset register of Bnnn (43_control.md R87). -/
inductive QJump where
  | v0
  | vx
  deriving DecidableEq, Repr

/-- `QLOGIC`: VF after 8xy1, 8xy2, 8xy3 (41_alu.md R67). -/
inductive QLogic where
  | preserve
  | reset
  deriving DecidableEq, Repr

/-- `QFLAG`: the order of the flag write and the result write (41_alu.md R64). -/
inductive QFlag where
  | flagLast
  | resultLast
  deriving DecidableEq, Repr

/-- `QADDI`: VF after Fx1E (44_memory_index.md R90). -/
inductive QAddI where
  | unaffected
  | overflow
  deriving DecidableEq, Repr

/-- `QBORROW`: the no-borrow flag at equal operands (41_alu.md R65). -/
inductive QBorrow where
  | ge
  | gt
  deriving DecidableEq, Repr

/-- `QSYS`: what 0nnn does (43_control.md R88). -/
inductive QSys where
  | nop
  | fault
  deriving DecidableEq, Repr

/-- The open parameters of 00_scope.md R8, fixed for one machine. State carries them, so that a claim about every
state holds for every choice of them (DESIGN CHOICE, safe; log entry 1). `IPT` is no field: the order of steps and
ticks is free (60_exceptions.md R115). `MAX_CART` has one value and is a constant (`Machine.maxCart`). -/
structure Config where
  qshift   : QShift
  qmemi    : QMemI
  qjump    : QJump
  qlogic   : QLogic
  qflag    : QFlag
  qaddi    : QAddI
  qborrow  : QBorrow
  qsys     : QSys
  /-- `FONT_BASE`: the type is the constraint `FONT_BASE + 80 <= 0x200`, that is at most 432
  (log entry 12). -/
  fontBase : Fin 433
  /-- `FONT_DATA`: 80 bytes, 5 for each hexadecimal digit (20_memory.md R39). -/
  fontData : Vector Byte 80
  deriving DecidableEq, Repr

/-- The byte of the `k`-th random draw (46_keys_timers_random.md R105): a free value, under no law. It has no body, so
nothing can be proved about it (log entry 2). -/
opaque Config.freeByte : Nat → Byte

end Sys2Proof
end

