-- ==== Sys2Proof/Machine/State.lean ====
section
/-! DEFINITION. The machine state, all of it plain data: the tuple `(MEM, V, I, PC, SP, S, DT, ST, FB, DIRTY, KEY, WAIT,
FAULT)` of 10_state.md, and two fields of the model's own, `cfg` and `draws`. -/

namespace Sys2Proof.Machine

/-- The three faults of 60_exceptions.md R106. An instruction that raises one TAKES it: the step answers a next state
with the code in `State.fault` (R109). The step outcome `fault` is what R55 says of a step requested after that: it has
no effect and returns the recorded fault again (safe: the machine has halted there too; log entry 5). -/
inductive Fault where
  /-- Code 1, raised by every unknown word and by 0nnn SYS under `QSYS = fault`. -/
  | unknownOpcode
  /-- Code 2, raised by 2nnn CALL with `SP = 16`. -/
  | stackOverflow
  /-- Code 3, raised by 00EE RET with `SP = 0`. -/
  | stackUnderflow
  deriving DecidableEq, Repr

/-- Why the model gives an instruction no meaning. No arm of `exec` answers one: all 35 instructions have a meaning. -/
inductive Refusal where
  /-- An instruction the model has not reached, by its mnemonic in the opcode table (safe: nothing is claimed of it). -/
  | notModelled (mnemonic : String)
  deriving DecidableEq, Repr

/-- `MEM`: the written bytes as (address, byte) pairs in the canonical form `Memory.wf` (Machine/Memory.lean). -/
abbrev Memory := List Host.Cell

/-- `FB`: row `y` (0 the top) is 64 one-bit pixels, column `x` at bit `x` of the row. Read it through `Frame.pixel`
(Machine/Ops.lean), which is `FB[y][x]` (10_state.md R25; log entry 11). -/
abbrev Frame := Vector (BitVec 64) 32

/-- The machine state. -/
structure State where
  /-- The parameters the machine was built with: the model's own field (00_scope.md R8; log entry 1). -/
  cfg   : Config
  /-- `MEM` (20_memory.md R33). -/
  mem   : Memory
  /-- `V[0]`..`V[15]` (10_state.md R16). -/
  v     : Vector Byte 16
  /-- `I` (R19). -/
  i     : Word
  /-- `PC` (R20). -/
  pc    : Word
  /-- `SP`, the depth of the call stack, 0..16 (R22; log entry 12). -/
  sp    : Fin 17
  /-- `S[0]`..`S[15]` (R22). -/
  stack : Vector Word 16
  /-- `DT` (R24). -/
  dt    : Byte
  /-- `ST` (R24). -/
  st    : Byte
  /-- `FB` (R25). -/
  fb    : Frame
  /-- `DIRTY` (R26). -/
  dirty : Bool
  /-- `KEY[0]`..`KEY[15]`, true when pressed (R27). -/
  keys  : Vector Bool 16
  /-- `WAIT` (R28). -/
  wait  : Option Reg
  /-- `FAULT` (R29). -/
  fault : Option Fault
  /-- How many random bytes have been drawn: the model's own field (46_keys_timers_random.md R105; log entry 2). -/
  draws : Nat
  deriving DecidableEq, Repr

/-- The machine built with the parameters `c` and an empty cartridge (70_reset_and_hazards.md R124, 10_state.md R31; the reset
values that are decisions of the spec: log entry 13). -/
def State.ofConfig (c : Config) : State where
  cfg := c
  mem := []
  v := Vector.replicate 16 0
  i := 0
  pc := 0x200
  sp := 0
  stack := Vector.replicate 16 0
  dt := 0
  st := 0
  fb := Vector.replicate 32 0
  dirty := false
  keys := Vector.replicate 16 false
  wait := none
  fault := none
  draws := 0

/-- The machine right after reset, its parameters at the defaults of R8 and no cartridge byte loaded (log entries 1, 3). -/
def State.reset : State := State.ofConfig defaultConfig

end Sys2Proof.Machine
end

