-- ==== Sys2Proof/Machine/Memory.lean ====
section
/-! DEFINITION. The byte memory as a list in one canonical form (20_memory.md R33, R34, R38, R40). -/

namespace Sys2Proof.Machine

/-- `MEM_SIZE` (00_scope.md R7). -/
def memSize : Nat := 4096

/-- `PROGRAM_BASE` (R7). -/
def programBase : Nat := 0x200

/-- `MAX_CART` (R8): the bytes from 0x200 to 0xFFF. -/
def maxCart : Nat := 3584

/-- `mask12(a)`, as the key of a memory cell (00_scope.md R10, 20_memory.md R34). -/
def mask12 (a : Word) : Nat := (a &&& 0x0FFF#16).toNat

/-- What an address nothing has written reads as: the construction image without a cartridge, the font at `FONT_BASE`
and 0 elsewhere (R38, R40 steps 1 and 2; log entry 4). -/
def initialByte (c : Config) (a : Nat) : Byte :=
  if h : c.fontBase.val ≤ a ∧ a < c.fontBase.val + 80 then c.fontData[a - c.fontBase.val] else 0

/-- The canonical form: addresses strictly rising, inside the address space, and no byte listed that an unlisted
address would read as. -/
abbrev Memory.wf (c : Config) (m : Memory) : Prop :=
  m.Pairwise (fun p q => p.1 < q.1) ∧ ∀ e ∈ m, e.1 < memSize ∧ e.2 ≠ initialByte c e.1

/-- The byte at address `a`. -/
def Memory.read (c : Config) : Memory → Nat → Byte
  | [], a => initialByte c a
  | (b, u) :: rest, a => if b = a then u else Memory.read c rest a

/-- The list without an entry for `a`. -/
def Memory.erase (m : Memory) (a : Nat) : Memory := m.filter fun e => e.1 != a

/-- The list with the entry `(a, x)` in its place. -/
def Memory.insert : Memory → Nat → Byte → Memory
  | [], a, x => [(a, x)]
  | (b, u) :: rest, a, x =>
    if a < b then (a, x) :: (b, u) :: rest
    else if b = a then (a, x) :: rest
    else (b, u) :: Memory.insert rest a x

/-- Writing one byte, keeping the canonical form. -/
def Memory.write (c : Config) (m : Memory) (a : Nat) (x : Byte) : Memory :=
  if x = initialByte c a then m.erase a else m.insert a x

end Sys2Proof.Machine
end

