-- ==== Sys2Proof/Machine/Ops.lean ====
section
/-! DEFINITION. The named operations over the state: one home for every read and write of a register, of memory, of the
call stack and of the framebuffer, the next-PC forms, and taking a fault. -/

namespace Sys2Proof.Machine

/-! ### Registers -/

/-- `V[r]` (10_state.md R16). -/
def State.getV (s : State) (r : Reg) : Byte := s.v[r]

/-- `V[r] <- b` (R16). -/
def State.setV (s : State) (r : Reg) (b : Byte) : State := { s with v := s.v.set r b }

/-- `I <- w` (R19). -/
def State.setI (s : State) (w : Word) : State := { s with i := w }

/-- `PC <- w` (R20). -/
def State.setPc (s : State) (w : Word) : State := { s with pc := w }

/-- `DT <- b` (R24). -/
def State.setDt (s : State) (b : Byte) : State := { s with dt := b }

/-- `ST <- b` (R24). -/
def State.setSt (s : State) (b : Byte) : State := { s with st := b }

/-- `FB <- f` (R25). -/
def State.setFb (s : State) (f : Frame) : State := { s with fb := f }

/-- `DIRTY <- d` (R26). -/
def State.setDirty (s : State) (d : Bool) : State := { s with dirty := d }

/-- `KEY[k]` (R27). -/
def State.getKey (s : State) (k : Key) : Bool := s.keys[k]

/-- `KEY[k] <- p` (R27). -/
def State.setKey (s : State) (k : Key) (p : Bool) : State := { s with keys := s.keys.set k p }

/-- `WAIT <- w` (R28). -/
def State.setWait (s : State) (w : Option Reg) : State := { s with wait := w }

/-- `FAULT <- f` (R29). -/
def State.setFault (s : State) (f : Option Fault) : State := { s with fault := f }

/-! ### Memory -/

/-- `MemRead(a, 1)` (00_scope.md R12): the byte at `mask12(a)`. -/
def State.memRead (s : State) (a : Word) : Byte := s.mem.read s.cfg (mask12 a)

/-- `MemWrite(a, 1, x)` (R12): the byte at `mask12(a)`. -/
def State.memWrite (s : State) (a : Word) (x : Byte) : State := { s with mem := s.mem.write s.cfg (mask12 a) x }

/-- The instruction word at `PC`: `MemRead(PC, 1) ++ MemRead(mod_16(PC + 1), 1)` (40_execution_cycle.md R57). -/
def State.fetch (s : State) : Word := wordOfBytes (s.memRead s.pc) (s.memRead (s.pc + 1))

/-! ### The next PC (40_execution_cycle.md R61) -/

/-- `PC <- mod_16(PC + 2)`. -/
def State.advance (s : State) : State := s.setPc (s.pc + 2)

/-- A conditional skip: `PC + 4` when the condition holds, else `PC + 2` (42_skips.md R79). -/
def State.skipIf (s : State) (cond : Bool) : State := s.setPc (if cond then s.pc + 4 else s.pc + 2)

/-- `PC <- zext_16(nnn)`. -/
def State.jump (s : State) (nnn : Addr) : State := s.setPc (nnn.setWidth 16)

/-! ### The call stack (10_state.md R22, R23) -/

/-- Push a return address; none when the stack is full. -/
def State.push (s : State) (ret : Word) : Option State :=
  if h : s.sp.val < 16 then
    some { s with stack := s.stack.set s.sp.val ret, sp := ⟨s.sp.val + 1, by omega⟩ }
  else none

/-- Pop the top return address, which keeps its place as a stale entry; none when the stack is empty. -/
def State.pop (s : State) : Option (Word × State) :=
  if _h : s.sp.val = 0 then none
  else some (s.stack[s.sp.val - 1], { s with sp := ⟨s.sp.val - 1, by omega⟩ })

/-! ### The framebuffer (10_state.md R25) -/

/-- `FB[y][x]`. -/
def Frame.pixel (f : Frame) (x : Fin 64) (y : Fin 32) : Bool := f[y].getLsbD x.val

/-- `FB[y][x] <- FB[y][x] ^ 1`. -/
def Frame.flip (f : Frame) (x : Fin 64) (y : Fin 32) : Frame :=
  f.set y (f[y] ^^^ BitVec.twoPow 64 x.val)

/-- The framebuffer with every pixel 0. -/
def Frame.blank : Frame := Vector.replicate 32 0

/-- One lit pixel of a sprite: flip it, and note a collision when it was set (45_display.md R96). -/
def drawPixel (acc : Frame × Bool) (p : Fin 64 × Fin 32) : Frame × Bool :=
  (Frame.flip acc.1 p.1 p.2, acc.2 || Frame.pixel acc.1 p.1 p.2)

/-- The lit pixels drawn one after another, with the collision flag. -/
def drawPixels (f : Frame) (ps : List (Fin 64 × Fin 32)) : Frame × Bool := ps.foldl drawPixel (f, false)

/-! ### Faults (60_exceptions.md R109, R111) -/

/-- `raise Fault(code)`: the instruction has no effect and `FAULT <- some(code)`; nothing is saved, no mode changes,
control goes to no handler, PC keeps the faulting instruction's address (R109). There is no return from it beside it:
no instruction clears `FAULT` (R111); the host's reset and restore replace the whole state (Machine/Events.lean). -/
def State.raise (s : State) (f : Fault) : State := s.setFault (some f)

/-- The code recorded for a fault (R106). -/
def Fault.code : Fault → Nat
  | .unknownOpcode => 1
  | .stackOverflow => 2
  | .stackUnderflow => 3

end Sys2Proof.Machine
end

