-- ==== Sys2Proof/Machine/Operands.lean ====
section
/-! DEFINITION. Every operand form: the shift source, the jump offset register, the effective address, the register
range, the key number, the font address, the decimal digits and the lit pixels of a sprite. -/

namespace Sys2Proof.Machine

/-- `ShiftSrc(x, y)` (41_alu.md R66). -/
def State.shiftSrc (s : State) (x y : Reg) : Byte :=
  match s.cfg.qshift with
  | .vx => s.getV x
  | .vy => s.getV y

/-- The register Bnnn adds: V0, or the one `nnn[11:8]` names (43_control.md R87). -/
def State.jumpReg (s : State) (nnn : Addr) : Reg :=
  match s.cfg.qjump with
  | .v0 => 0
  | .vx => (nnn.extractLsb' 8 4).toFin

/-- The address of byte `k` of an access at `I`; memory masks it to 12 bits (44_memory_index.md, first paragraph). -/
def State.effAddr (s : State) (k : Nat) : Word := s.i + BitVec.ofNat 16 k

/-- All registers, ascending. -/
def allRegs : List Reg := [0, 1, 2, 3, 4, 5, 6, 7, 8, 9, 10, 11, 12, 13, 14, 15]

/-- `V[0]` to `V[x]` inclusive, ascending: the registers Fx55 and Fx65 move (44_memory_index.md R91, R92). -/
def regsUpTo (x : Reg) : List Reg := allRegs.take (x.val + 1)

/-- The value Fx55 and Fx65 leave in I, by `QMEMI` (R91, R92). -/
def State.indexAfterBlock (s : State) (x : Reg) : Word :=
  match s.cfg.qmemi with
  | .unchanged => s.i
  | .plusXPlus1 => s.effAddr (x.val + 1)
  | .plusX => s.effAddr x.val

/-- `v & 0x0F` as a number 0..15: a key number (46_keys_timers_random.md R98) or a font digit (44_memory_index.md R94). -/
def lowNibble (v : Byte) : Fin 16 := (v.extractLsb' 0 4).toFin

/-- `FONT_BASE + 5 * digit` (R94). -/
def fontAddr (c : Config) (digit : Fin 16) : Word := BitVec.ofNat 16 (c.fontBase.val + 5 * digit.val)

/-- The hundreds of a byte (R93). -/
def hundreds (v : Byte) : Byte := BitVec.ofNat 8 (v.toNat / 100)

/-- The tens of a byte (R93). -/
def tens (v : Byte) : Byte := BitVec.ofNat 8 (v.toNat / 10 % 10)

/-- The ones of a byte (R93). -/
def ones (v : Byte) : Byte := BitVec.ofNat 8 (v.toNat % 10)

/-- Pixel `c` (0 the leftmost) of a sprite byte: `(b >> (7 - c)) & 1` (45_display.md R96). -/
def spriteBit (b : Byte) (c : Nat) : Bool := b.getLsbD (7 - c)

/-- The lit pixels of one sprite row: each at its column modulo 64 and its row modulo 32 (R95, R96). -/
def rowPixels (px py : Nat) (r : Nat) (b : Byte) : List (Fin 64 × Fin 32) :=
  ((List.range 8).filter (spriteBit b)).map fun c => (Fin.ofNat 64 (px + c), Fin.ofNat 32 (py + r))

/-- The lit pixels of the `n`-row sprite at `I`, placed at `(px, py)` (R96). -/
def State.spritePixels (s : State) (px py n : Nat) : List (Fin 64 × Fin 32) :=
  (List.range n).flatMap fun r => rowPixels px py r (s.memRead (s.effAddr r))

end Sys2Proof.Machine
end

