-- ==== Sys2Proof/Machine/Flags.lean ====
section
/-! DEFINITION. Every flag computation: the only flag register is VF (10_state.md R17, R18). -/

namespace Sys2Proof.Machine

/-- A flag as the byte VF takes. -/
def flagByte (b : Bool) : Byte := if b then 1 else 0

/-- Carry out of bit 7: the exact sum exceeds 0xFF (41_alu.md R63, R74). -/
def carryFlag (a b : Byte) : Byte := flagByte (decide (a.toNat + b.toNat > 0xFF))

/-- `NoBorrow(a, b)` (R65). -/
def noBorrow (c : Config) (a b : Byte) : Byte :=
  match c.qborrow with
  | .ge => flagByte (decide (a.toNat ≥ b.toNat))
  | .gt => flagByte (decide (a.toNat > b.toNat))

/-- The bit a shift right pushes out: `src & 0x01` (R76). -/
def shiftOutRight (src : Byte) : Byte := src &&& 0x01

/-- The bit a shift left pushes out: `(src >> 7) & 0x01` (R78). -/
def shiftOutLeft (src : Byte) : Byte := (src >>> 7) &&& 0x01

/-- The sum of Fx1E leaves the 12-bit range (44_memory_index.md R90). -/
def indexOverflow (i : Word) (b : Byte) : Byte := flagByte (decide (i.toNat + b.toNat > 0xFFF))

/-- `WriteResultAndFlag(x, res, f)` (41_alu.md R64). -/
def State.writeResultAndFlag (s : State) (x : Reg) (res f : Byte) : State :=
  match s.cfg.qflag with
  | .flagLast => (s.setV x res).setV vf f
  | .resultLast => (s.setV vf f).setV x res

/-- The result of 8xy1, 8xy2, 8xy3: VF is written, with 0, only under `QLOGIC = reset` (R67). -/
def State.writeLogic (s : State) (x : Reg) (res : Byte) : State :=
  match s.cfg.qlogic with
  | .preserve => s.setV x res
  | .reset => s.writeResultAndFlag x res 0

/-- The flag of Fx1E: VF is written only under `QADDI = overflow` (44_memory_index.md R90). -/
def State.writeIndexFlag (s : State) (f : Byte) : State :=
  match s.cfg.qaddi with
  | .unaffected => s
  | .overflow => s.setV vf f

end Sys2Proof.Machine
end

