-- ==== Sys2Proof/Machine/Alu.lean ====
section
/-! DEFINITION. Register loads and arithmetic/logic (41_alu.md): the meanings of 6xkk, 7xkk and 8xy0 to 8xyE. -/

namespace Sys2Proof.Machine

/-- 6xkk LD Vx, kk (R68). -/
def execLdVxKk (x : Reg) (kk : Byte) (s : State) : Host.Outcome State Fault Refusal :=
  .next (s.setV x kk).advance

/-- 7xkk ADD Vx, kk (R69): no flag. -/
def execAddVxKk (x : Reg) (kk : Byte) (s : State) : Host.Outcome State Fault Refusal :=
  .next (s.setV x (s.getV x + kk)).advance

/-- 8xy0 LD Vx, Vy (R70). -/
def execLdVxVy (x y : Reg) (s : State) : Host.Outcome State Fault Refusal :=
  .next (s.setV x (s.getV y)).advance

/-- 8xy1 OR Vx, Vy (R71). -/
def execOrVxVy (x y : Reg) (s : State) : Host.Outcome State Fault Refusal :=
  .next (s.writeLogic x (s.getV x ||| s.getV y)).advance

/-- 8xy2 AND Vx, Vy (R72). -/
def execAndVxVy (x y : Reg) (s : State) : Host.Outcome State Fault Refusal :=
  .next (s.writeLogic x (s.getV x &&& s.getV y)).advance

/-- 8xy3 XOR Vx, Vy (R73). -/
def execXorVxVy (x y : Reg) (s : State) : Host.Outcome State Fault Refusal :=
  .next (s.writeLogic x (s.getV x ^^^ s.getV y)).advance

/-- 8xy4 ADD Vx, Vy (R74): the carry to VF. -/
def execAddVxVy (x y : Reg) (s : State) : Host.Outcome State Fault Refusal :=
  let a := s.getV x
  let b := s.getV y
  .next (s.writeResultAndFlag x (a + b) (carryFlag a b)).advance

/-- 8xy5 SUB Vx, Vy (R75): `V[x] - V[y]`, no-borrow to VF. -/
def execSubVxVy (x y : Reg) (s : State) : Host.Outcome State Fault Refusal :=
  let a := s.getV x
  let b := s.getV y
  .next (s.writeResultAndFlag x (a - b) (noBorrow s.cfg a b)).advance

/-- 8xy6 SHR Vx, Vy (R76): the shifted-out bit 0 to VF. -/
def execShrVxVy (x y : Reg) (s : State) : Host.Outcome State Fault Refusal :=
  let src := s.shiftSrc x y
  .next (s.writeResultAndFlag x (src >>> 1) (shiftOutRight src)).advance

/-- 8xy7 SUBN Vx, Vy (R77): `V[y] - V[x]`, no-borrow to VF. -/
def execSubnVxVy (x y : Reg) (s : State) : Host.Outcome State Fault Refusal :=
  let a := s.getV x
  let b := s.getV y
  .next (s.writeResultAndFlag x (b - a) (noBorrow s.cfg b a)).advance

/-- 8xyE SHL Vx, Vy (R78): the shifted-out bit 7 to VF. -/
def execShlVxVy (x y : Reg) (s : State) : Host.Outcome State Fault Refusal :=
  let src := s.shiftSrc x y
  .next (s.writeResultAndFlag x (src <<< 1) (shiftOutLeft src)).advance

end Sys2Proof.Machine
end

