-- ==== Sys2Proof/Machine/Control.lean ====
section
/-! DEFINITION. Jumps, calls, returns and SYS (43_control.md): the meanings of 0nnn, 1nnn, 2nnn, 00EE and Bnnn. -/

namespace Sys2Proof.Machine

/-- 1nnn JP nnn (R84). -/
def execJp (nnn : Addr) (s : State) : Host.Outcome State Fault Refusal :=
  .next (s.jump nnn)

/-- 2nnn CALL nnn (R85): push `PC + 2` and jump, or `StackOverflow` when the stack is full. -/
def execCall (nnn : Addr) (s : State) : Host.Outcome State Fault Refusal :=
  match s.push (s.pc + 2) with
  | some t => .next (t.jump nnn)
  | none => .next (s.raise .stackOverflow)

/-- 00EE RET (R86): PC takes the popped address, or `StackUnderflow` when the stack is empty. -/
def execRet (s : State) : Host.Outcome State Fault Refusal :=
  match s.pop with
  | some (ret, t) => .next (t.setPc ret)
  | none => .next (s.raise .stackUnderflow)

/-- Bnnn JP V0, nnn (R87): the 16-bit sum, not masked. -/
def execJpV0Nnn (nnn : Addr) (s : State) : Host.Outcome State Fault Refusal :=
  .next (s.setPc (nnn.setWidth 16 + (s.getV (s.jumpReg nnn)).setWidth 16))

/-- 0nnn SYS nnn (R88), by `QSYS`: no effect but the advance of PC, or `UnknownOpcode`. The operand is ignored. -/
def execSys (_nnn : Addr) (s : State) : Host.Outcome State Fault Refusal :=
  match s.cfg.qsys with
  | .nop => .next s.advance
  | .fault => .next (s.raise .unknownOpcode)

end Sys2Proof.Machine
end

