-- ==== Sys2Proof/Machine/Display.lean ====
section
/-! DEFINITION. Sprite draw and display clear (45_display.md): the meanings of Dxyn and 00E0. -/

namespace Sys2Proof.Machine

/-- Dxyn DRW Vx, Vy, n (R96): the sprite XORed onto the framebuffer, VF the collision flag, DIRTY set. -/
def execDrwVxVyN (x y : Reg) (n : Fin 16) (s : State) : Host.Outcome State Fault Refusal :=
  let drawn := drawPixels s.fb (s.spritePixels (s.getV x).toNat (s.getV y).toNat n.val)
  .next (((s.setFb drawn.1).setV vf (flagByte drawn.2)).setDirty true).advance

/-- 00E0 CLS (R97): every pixel 0, DIRTY set, VF not written. -/
def execCls (s : State) : Host.Outcome State Fault Refusal :=
  .next ((s.setFb Frame.blank).setDirty true).advance

end Sys2Proof.Machine
end

