-- ==== Sys2Proof/Machine/Index.lean ====
section
/-! DEFINITION. Index register, memory block moves, BCD and font (44_memory_index.md): the meanings of Annn, Fx1E, Fx55,
Fx65, Fx33 and Fx29. -/

namespace Sys2Proof.Machine

/-- `MemWrite(I + k, 1, V[k])` for each register of the list, in its order (R91). -/
def State.storeRegs (s : State) (rs : List Reg) : State :=
  rs.foldl (fun t k => t.memWrite (s.effAddr k.val) (s.getV k)) s

/-- `V[k] <- MemRead(I + k, 1)` for each register of the list, in its order (R92). -/
def State.loadRegs (s : State) (rs : List Reg) : State :=
  rs.foldl (fun t k => t.setV k (s.memRead (s.effAddr k.val))) s

/-- Annn LD I, nnn (R89). -/
def execLdINnn (nnn : Addr) (s : State) : Host.Outcome State Fault Refusal :=
  .next (s.setI (nnn.setWidth 16)).advance

/-- Fx1E ADD I, Vx (R90): I keeps the full 16-bit sum. -/
def execAddIVx (x : Reg) (s : State) : Host.Outcome State Fault Refusal :=
  let b := s.getV x
  .next ((s.setI (s.i + b.setWidth 16)).writeIndexFlag (indexOverflow s.i b)).advance

/-- Fx29 LD F, Vx (R94). -/
def execLdFVx (x : Reg) (s : State) : Host.Outcome State Fault Refusal :=
  .next (s.setI (fontAddr s.cfg (lowNibble (s.getV x)))).advance

/-- Fx33 LD B, Vx (R93): hundreds, tens and ones at I, I + 1 and I + 2. -/
def execLdBVx (x : Reg) (s : State) : Host.Outcome State Fault Refusal :=
  let b := s.getV x
  .next (((s.memWrite (s.effAddr 0) (hundreds b)).memWrite (s.effAddr 1) (tens b)).memWrite (s.effAddr 2) (ones b)).advance

/-- Fx55 LD [I], Vx (R91). -/
def execLdMemIVx (x : Reg) (s : State) : Host.Outcome State Fault Refusal :=
  .next ((s.storeRegs (regsUpTo x)).setI (s.indexAfterBlock x)).advance

/-- Fx65 LD Vx, [I] (R92). -/
def execLdVxMemI (x : Reg) (s : State) : Host.Outcome State Fault Refusal :=
  .next ((s.loadRegs (regsUpTo x)).setI (s.indexAfterBlock x)).advance

end Sys2Proof.Machine
end

