-- ==== Sys2Proof/Machine/Input.lean ====
section
/-! DEFINITION. Key input, timer access and random (46_keys_timers_random.md): the meanings of Ex9E, ExA1, Fx0A, Fx07,
Fx15, Fx18 and Cxkk. -/

namespace Sys2Proof.Machine

/-- Ex9E SKP Vx (R98, R99). -/
def execSkpVx (x : Reg) (s : State) : Host.Outcome State Fault Refusal :=
  .next (s.skipIf (s.getKey (lowNibble (s.getV x))))

/-- ExA1 SKNP Vx (R98, R100). -/
def execSknpVx (x : Reg) (s : State) : Host.Outcome State Fault Refusal :=
  .next (s.skipIf (!s.getKey (lowNibble (s.getV x))))

/-- Fx0A LD Vx, K (R101): suspend always, even with a key held; PC is not written. The host's key press resolves the
wait (Machine/Events.lean, 60_exceptions.md R119). -/
def execLdVxK (x : Reg) (s : State) : Host.Outcome State Fault Refusal :=
  .next (s.setWait (some x))

/-- Fx07 LD Vx, DT (R102). -/
def execLdVxDt (x : Reg) (s : State) : Host.Outcome State Fault Refusal :=
  .next (s.setV x s.dt).advance

/-- Fx15 LD DT, Vx (R103). -/
def execLdDtVx (x : Reg) (s : State) : Host.Outcome State Fault Refusal :=
  .next (s.setDt (s.getV x)).advance

/-- Fx18 LD ST, Vx (R104). -/
def execLdStVx (x : Reg) (s : State) : Host.Outcome State Fault Refusal :=
  .next (s.setSt (s.getV x)).advance

/-- Cxkk with the drawn byte `r` (R105): `V[x] <- r & kk`. -/
def rndWith (r : Byte) (x : Reg) (kk : Byte) (s : State) : State := (s.setV x (r &&& kk)).advance

/-- Count one draw: the next one is a fresh free value (log entry 2). -/
def State.countDraw (s : State) : State := { s with draws := s.draws + 1 }

/-- Cxkk RND Vx, kk (R105): the byte is free, under no law. -/
def execRndVxKk (x : Reg) (kk : Byte) (s : State) : Host.Outcome State Fault Refusal :=
  .next (rndWith (Config.freeByte s.draws) x kk s.countDraw)

end Sys2Proof.Machine
end

