-- ==== Sys2Proof/Machine/Cycle.lean ====
section
/-! DEFINITION. The instruction cycle (40_execution_cycle.md): the two gates, the fetch, and executing what was decoded. -/

namespace Sys2Proof.Machine

/-- Execute what the word decoded to (R58): an instruction by its meaning, `Unknown(w)` by raising `UnknownOpcode`
(60_exceptions.md R107). -/
def execOperation (op : Operation) (s : State) : Host.Outcome State Fault Refusal :=
  match op with
  | .known i => exec i s
  | .unknown _ => .next (s.raise .unknownOpcode)

/-- One step, its checks in the order of 60_exceptions.md R110: a recorded fault is returned again with no effect (R55),
a pending key wait changes nothing (R56), otherwise fetch, decode and execute (R57, R58). The gates stand
here only, not in `exec` (log entry 6). -/
def cycle (s : State) : Host.Outcome State Fault Refusal :=
  match s.fault with
  | some f => .fault f
  | none =>
    match s.wait with
    | some _ => .next s
    | none => execOperation (decode s.fetch) s

end Sys2Proof.Machine
end

