-- ==== Sys2Proof/Machine/Step.lean ====
section
/-! DEFINITION. The step of the machine, and placing one instruction word where it fetches. -/

namespace Sys2Proof.Machine

/-- The instruction step (40_execution_cycle.md R55 to R58), the execution unit's only transition. -/
def step (s : State) : Host.Outcome State Fault Refusal := cycle s

/-- `s` with the opcode table's word stored big endian at `PC`, where the next step fetches. A step fetches only when
`FAULT` and `WAIT` are none (R55, R56), so both are cleared (log entries 3, 10). -/
def State.withFetchWord (s : State) (nbits w : Nat) : State :=
  (((s.memWrite s.pc (hiByte (tableWord nbits w))).memWrite (s.pc + 1) (loByte (tableWord nbits w))).setWait none).setFault none

end Sys2Proof.Machine
end

