-- ==== Sys2Proof/Machine/Assembly.lean ====
section
/-! DEFINITION. The assembly language (30_encoding.md R53): the function from mnemonic and operands to an instruction and back, and
the spelling of one line. The spelling is the spec's decision D33; splitting source text into lines is outside the scope (R54). -/

namespace Sys2Proof.Machine

/-- The mnemonics of R49. -/
inductive Mnemonic where
  | sys
  | cls
  | ret
  | jp
  | call
  | se
  | sne
  | ld
  | add
  | or
  | and
  | xor
  | sub
  | shr
  | subn
  | shl
  | rnd
  | drw
  | skp
  | sknp
  deriving DecidableEq, Repr

/-- The operands of R53: a register, an immediate, or a special operand. -/
inductive AsmOperand where
  | reg (r : Reg)
  | imm (n : Nat)
  /-- `I`, the index register. -/
  | index
  /-- `DT`, the delay timer. -/
  | delayTimer
  /-- `ST`, the sound timer. -/
  | soundTimer
  /-- `K`, the key wait. -/
  | key
  /-- `F`, the font address. -/
  | font
  /-- `B`, the decimal digits. -/
  | bcd
  /-- `[I]`, memory at I. -/
  | atIndex
  deriving DecidableEq, Repr

/-- One line: a mnemonic and its operands. -/
structure AsmLine where
  mnemonic : Mnemonic
  operands : List AsmOperand
  deriving DecidableEq, Repr

/-- The line of an instruction. SHR and SHL spell both registers (R53). -/
def disassemble : Instr → AsmLine
  | .sys nnn => ⟨.sys, [.imm nnn.toNat]⟩
  | .cls => ⟨.cls, []⟩
  | .ret => ⟨.ret, []⟩
  | .jp nnn => ⟨.jp, [.imm nnn.toNat]⟩
  | .call nnn => ⟨.call, [.imm nnn.toNat]⟩
  | .seVxKk x kk => ⟨.se, [.reg x, .imm kk.toNat]⟩
  | .sneVxKk x kk => ⟨.sne, [.reg x, .imm kk.toNat]⟩
  | .seVxVy x y => ⟨.se, [.reg x, .reg y]⟩
  | .ldVxKk x kk => ⟨.ld, [.reg x, .imm kk.toNat]⟩
  | .addVxKk x kk => ⟨.add, [.reg x, .imm kk.toNat]⟩
  | .ldVxVy x y => ⟨.ld, [.reg x, .reg y]⟩
  | .orVxVy x y => ⟨.or, [.reg x, .reg y]⟩
  | .andVxVy x y => ⟨.and, [.reg x, .reg y]⟩
  | .xorVxVy x y => ⟨.xor, [.reg x, .reg y]⟩
  | .addVxVy x y => ⟨.add, [.reg x, .reg y]⟩
  | .subVxVy x y => ⟨.sub, [.reg x, .reg y]⟩
  | .shrVxVy x y => ⟨.shr, [.reg x, .reg y]⟩
  | .subnVxVy x y => ⟨.subn, [.reg x, .reg y]⟩
  | .shlVxVy x y => ⟨.shl, [.reg x, .reg y]⟩
  | .sneVxVy x y => ⟨.sne, [.reg x, .reg y]⟩
  | .ldINnn nnn => ⟨.ld, [.index, .imm nnn.toNat]⟩
  | .jpV0Nnn nnn => ⟨.jp, [.reg 0, .imm nnn.toNat]⟩
  | .rndVxKk x kk => ⟨.rnd, [.reg x, .imm kk.toNat]⟩
  | .drwVxVyN x y n => ⟨.drw, [.reg x, .reg y, .imm n.val]⟩
  | .skpVx x => ⟨.skp, [.reg x]⟩
  | .sknpVx x => ⟨.sknp, [.reg x]⟩
  | .ldVxDt x => ⟨.ld, [.reg x, .delayTimer]⟩
  | .ldVxK x => ⟨.ld, [.reg x, .key]⟩
  | .ldDtVx x => ⟨.ld, [.delayTimer, .reg x]⟩
  | .ldStVx x => ⟨.ld, [.soundTimer, .reg x]⟩
  | .addIVx x => ⟨.add, [.index, .reg x]⟩
  | .ldFVx x => ⟨.ld, [.font, .reg x]⟩
  | .ldBVx x => ⟨.ld, [.bcd, .reg x]⟩
  | .ldMemIVx x => ⟨.ld, [.atIndex, .reg x]⟩
  | .ldVxMemI x => ⟨.ld, [.reg x, .atIndex]⟩

/-- An immediate `nnn`, 0x000..0xFFF; a larger one is refused. -/
def immAddr (n : Nat) (f : Addr → Instr) : Option Instr :=
  if n < 0x1000 then some (f (BitVec.ofNat 12 n)) else none

/-- An immediate `kk`, 0x00..0xFF; a larger one is refused. -/
def immByte (n : Nat) (f : Byte → Instr) : Option Instr :=
  if n < 0x100 then some (f (BitVec.ofNat 8 n)) else none

/-- An immediate `n`, 0x0..0xF; a larger one is refused. -/
def immRows (n : Nat) (f : Fin 16 → Instr) : Option Instr :=
  if h : n < 16 then some (f ⟨n, h⟩) else none

/-- The forms of LD. -/
def assembleLd : List AsmOperand → Option Instr
  | [.reg x, .imm kk] => immByte kk (.ldVxKk x)
  | [.reg x, .reg y] => some (.ldVxVy x y)
  | [.index, .imm nnn] => immAddr nnn .ldINnn
  | [.reg x, .delayTimer] => some (.ldVxDt x)
  | [.reg x, .key] => some (.ldVxK x)
  | [.delayTimer, .reg x] => some (.ldDtVx x)
  | [.soundTimer, .reg x] => some (.ldStVx x)
  | [.font, .reg x] => some (.ldFVx x)
  | [.bcd, .reg x] => some (.ldBVx x)
  | [.atIndex, .reg x] => some (.ldMemIVx x)
  | [.reg x, .atIndex] => some (.ldVxMemI x)
  | _ => none

/-- A mnemonic of two registers and nothing else. -/
def twoRegs (f : Reg → Reg → Instr) : List AsmOperand → Option Instr
  | [.reg x, .reg y] => some (f x y)
  | _ => none

/-- A mnemonic of one register and nothing else. -/
def oneReg (f : Reg → Instr) : List AsmOperand → Option Instr
  | [.reg x] => some (f x)
  | _ => none

/-- A mnemonic of a register and a byte. -/
def regByte (f : Reg → Byte → Instr) : List AsmOperand → Option Instr
  | [.reg x, .imm kk] => immByte kk (f x)
  | _ => none

/-- A mnemonic of one address and nothing else. -/
def oneAddr (f : Addr → Instr) : List AsmOperand → Option Instr
  | [.imm nnn] => immAddr nnn f
  | _ => none

/-- A mnemonic without operands. -/
def noOperand (i : Instr) : List AsmOperand → Option Instr
  | [] => some i
  | _ => none

/-- The forms of JP. -/
def assembleJp : List AsmOperand → Option Instr
  | [.imm nnn] => immAddr nnn .jp
  | [.reg r, .imm nnn] => if r = 0 then immAddr nnn .jpV0Nnn else none
  | _ => none

/-- The forms of ADD. -/
def assembleAdd : List AsmOperand → Option Instr
  | [.reg x, .imm kk] => immByte kk (.addVxKk x)
  | [.reg x, .reg y] => some (.addVxVy x y)
  | [.index, .reg x] => some (.addIVx x)
  | _ => none

/-- DRW. -/
def assembleDrw : List AsmOperand → Option Instr
  | [.reg x, .reg y, .imm n] => immRows n (.drwVxVyN x y)
  | _ => none

/-- The instruction the line spells, whatever its words. -/
def assembleForm (l : AsmLine) : Option Instr :=
  match l.mnemonic with
  | .sys => oneAddr .sys l.operands
  | .cls => noOperand .cls l.operands
  | .ret => noOperand .ret l.operands
  | .jp => assembleJp l.operands
  | .call => oneAddr .call l.operands
  | .se => (regByte .seVxKk l.operands).or (twoRegs .seVxVy l.operands)
  | .sne => (regByte .sneVxKk l.operands).or (twoRegs .sneVxVy l.operands)
  | .ld => assembleLd l.operands
  | .add => assembleAdd l.operands
  | .or => twoRegs .orVxVy l.operands
  | .and => twoRegs .andVxVy l.operands
  | .xor => twoRegs .xorVxVy l.operands
  | .sub => twoRegs .subVxVy l.operands
  | .shr => twoRegs .shrVxVy l.operands
  | .subn => twoRegs .subnVxVy l.operands
  | .shl => twoRegs .shlVxVy l.operands
  | .rnd => regByte .rndVxKk l.operands
  | .drw => assembleDrw l.operands
  | .skp => oneReg .skpVx l.operands
  | .sknp => oneReg .sknpVx l.operands

/-- The instruction of a line; none where R53 refuses it: an operand out of its range, or operands that are no form of the mnemonic.
SYS 0x0E0 and SYS 0x0EE have no word of their own (R50) and are refused (DESIGN CHOICE, log entry 17). -/
def assemble (l : AsmLine) : Option Instr := (assembleForm l).filter Instr.wellFormed

/-! ### Spelling -/

/-- A hexadecimal digit. -/
def hexDigit (n : Nat) : Char :=
  ['0', '1', '2', '3', '4', '5', '6', '7', '8', '9', 'A', 'B', 'C', 'D', 'E', 'F'].getD (n % 16) '0'

/-- `n` in hexadecimal, `width` digits. -/
def hexDigits : Nat → Nat → List Char
  | 0, _ => []
  | width + 1, n => hexDigit (n / 16 ^ width) :: hexDigits width n

/-- How many hexadecimal digits an immediate of the mnemonic has: 3 for `nnn`, 2 for `kk`, 1 for `n`. Beside `I` or V0, or alone, it
is `nnn`. -/
def immWidth (l : AsmLine) : Nat :=
  match l.mnemonic, l.operands with
  | .drw, _ => 1
  | .jp, _ => 3
  | _, [.reg _, .imm _] => 2
  | _, _ => 3

/-- The characters of a mnemonic. -/
def Mnemonic.chars : Mnemonic → List Char
  | .sys => ['S', 'Y', 'S']
  | .cls => ['C', 'L', 'S']
  | .ret => ['R', 'E', 'T']
  | .jp => ['J', 'P']
  | .call => ['C', 'A', 'L', 'L']
  | .se => ['S', 'E']
  | .sne => ['S', 'N', 'E']
  | .ld => ['L', 'D']
  | .add => ['A', 'D', 'D']
  | .or => ['O', 'R']
  | .and => ['A', 'N', 'D']
  | .xor => ['X', 'O', 'R']
  | .sub => ['S', 'U', 'B']
  | .shr => ['S', 'H', 'R']
  | .subn => ['S', 'U', 'B', 'N']
  | .shl => ['S', 'H', 'L']
  | .rnd => ['R', 'N', 'D']
  | .drw => ['D', 'R', 'W']
  | .skp => ['S', 'K', 'P']
  | .sknp => ['S', 'K', 'N', 'P']

/-- The characters of an operand, an immediate with `width` digits. -/
def AsmOperand.chars (width : Nat) : AsmOperand → List Char
  | .reg r => ['V', hexDigit r.val]
  | .imm n => ['0', 'x'] ++ hexDigits width n
  | .index => ['I']
  | .delayTimer => ['D', 'T']
  | .soundTimer => ['S', 'T']
  | .key => ['K']
  | .font => ['F']
  | .bcd => ['B']
  | .atIndex => ['[', 'I', ']']

/-- The operands, separated by `, `. -/
def operandChars (width : Nat) : List AsmOperand → List Char
  | [] => []
  | [o] => o.chars width
  | o :: os => o.chars width ++ [',', ' '] ++ operandChars width os

/-- The characters of a line: mnemonic, a space, operands separated by `, ` (R53). -/
def AsmLine.chars (l : AsmLine) : List Char :=
  match l.operands with
  | [] => l.mnemonic.chars
  | _ => l.mnemonic.chars ++ [' '] ++ operandChars (immWidth l) l.operands

/-- The text of a line. -/
def AsmLine.text (l : AsmLine) : String := String.ofList l.chars

end Sys2Proof.Machine
end

