-- ==== Sys2Proof/Machine/Events.lean ====
section
/-! DEFINITION. The host interface (60_exceptions.md R115 to R121, 70_reset_and_hazards.md R124, R126): the events, each
between two steps and in any order, and the outputs. -/

namespace Sys2Proof.Machine

/-- The bytes written at `a`, `a + 1`, ... in order (`load_block`, 20_memory.md R40). -/
def Memory.load (c : Config) : Memory → Nat → List Byte → Memory
  | m, _, [] => m
  | m, a, b :: bs => Memory.load c (m.write c a b) (a + 1) bs

/-- Reset, the construction of a machine from its parameters and a cartridge (R124): none when the cartridge does not fit
(R40). -/
def State.construct (c : Config) (cart : List Byte) : Option State :=
  if cart.length ≤ maxCart then
    some { State.ofConfig c with mem := Memory.load c [] programBase cart }
  else none

/-- A timer counted down by one, never below zero (R117). -/
def countDown (b : Byte) : Byte := if b = 0 then 0 else b - 1

/-- `tick` (R117), whatever WAIT and FAULT hold. -/
def State.tick (s : State) : State := (s.setDt (countDown s.dt)).setSt (countDown s.st)

/-- `key_down(k)` (R118), which resolves a pending wait when the key was released before (R119; log entry 16). -/
def State.keyDown (s : State) (k : Key) : State :=
  let pressed := s.setKey k true
  if s.getKey k then pressed
  else
    match s.wait with
    | some x => ((pressed.setV x (BitVec.ofNat 8 k.val)).setWait none).advance
    | none => pressed

/-- `key_up(k)` (R118): it never resolves a wait (R119). -/
def State.keyUp (s : State) (k : Key) : State := s.setKey k false

/-- `display_ack` (R120). -/
def State.displayAck (s : State) : State := s.setDirty false

/-- The machine after a step event: a step that is not taken leaves it as it was (40_execution_cycle.md R55). -/
def State.afterStep (s : State) : State :=
  match step s with
  | .next t => t
  | .fault _ => s
  | .refused _ => s

/-- `step_result` (R116): none for ok, or the fault, the one just raised or the one recorded before (R55, R109). -/
def State.stepResult (s : State) : Option Fault :=
  match step s with
  | .next t => t.fault
  | .fault f => some f
  | .refused _ => none

/-- `audio_request` (R121): 1 exactly when `ST != 0`. -/
def State.audioRequest (s : State) : Bool := s.st != 0

/-- The host's events (R116), and the restore of a captured state (R126). -/
inductive Event where
  | reset (c : Config) (cart : List Byte)
  | step
  | tick
  | keyDown (k : Key)
  | keyUp (k : Key)
  | displayAck
  | restore (snapshot : State)
  deriving DecidableEq, Repr

/-- The machine after an event. A cartridge that does not fit leaves the host what it had (R124). Reset and restore replace
the whole state of the spec; `draws`, the model's count of random inputs, runs on, so that bytes drawn afterwards are fresh
(log entry 8). -/
def Event.apply (e : Event) (s : State) : State :=
  match e with
  | .reset c cart =>
    match State.construct c cart with
    | some t => { t with draws := s.draws }
    | none => s
  | .step => s.afterStep
  | .tick => s.tick
  | .keyDown k => s.keyDown k
  | .keyUp k => s.keyUp k
  | .displayAck => s.displayAck
  | .restore snapshot => { snapshot with draws := s.draws }

/-- The machine after events one after another: the order is the host's, and free (R115; log entry 7). -/
def runEvents (es : List Event) (s : State) : State := es.foldl (fun t e => e.apply t) s

end Sys2Proof.Machine
end

