-- ==== Sys2Proof/Machine/Debugger.lean ====
section
/-! DEFINITION. The debug gate (60_exceptions.md R122): host side, checked before a step, no part of the datapath's State. -/

namespace Sys2Proof.Machine

/-- A breakpoint: an address 0x000..0xFFF and an enabled flag. -/
structure Breakpoint where
  addr    : Fin 4096
  enabled : Bool
  deriving DecidableEq, Repr

/-- The controller is running or paused. -/
inductive RunMode where
  | running
  | paused
  deriving DecidableEq, Repr

/-- The controller: its breakpoints, its mode, and whether the next step is the first one after leaving Paused. -/
structure Debugger where
  breakpoints : List Breakpoint
  mode        : RunMode
  resuming    : Bool
  deriving DecidableEq, Repr

/-- `set_breakpoint(a)`: none is `BreakpointOutOfRange`; an address set again is enabled again (log entry 9). -/
def Debugger.setBreakpoint (d : Debugger) (a : Nat) : Option Debugger :=
  if h : a < 4096 then
    some { d with breakpoints := ⟨⟨a, h⟩, true⟩ :: d.breakpoints.filter (fun b => b.addr != ⟨a, h⟩) }
  else none

/-- An enabled breakpoint's address equals `mask12(PC)`. -/
def Debugger.hits (d : Debugger) (s : State) : Bool :=
  d.breakpoints.any fun b => b.enabled && b.addr.val == mask12 s.pc

/-- Leaving Paused: the next step runs without the check. -/
def Debugger.continueRun (d : Debugger) : Debugger :=
  match d.mode with
  | .paused => { d with mode := .running, resuming := true }
  | .running => d

/-- A step the host asks for through the gate: at a hit the controller pauses and the step is not taken. The first step asked for
after leaving Paused ends the unchecked step, also where it executes no instruction because `FAULT` is set or a key wait is pending:
R122 and D34 do not say (DESIGN CHOICE, log entry 9). -/
def Debugger.gatedStep (d : Debugger) (s : State) : Debugger × State :=
  match d.mode with
  | .paused => (d, s)
  | .running =>
    if !d.resuming && d.hits s then ({ d with mode := .paused }, s)
    else ({ d with resuming := false }, s.afterStep)

end Sys2Proof.Machine
end

