-- ==== Sys2Proof/Safety.lean ====
section
/-! DEFINITION. The terms that claims use: what an instruction may leave changed (frames), what a result is, the causes of a
fault, and the invariant of the machine. -/

namespace Sys2Proof.Machine

/-! ### Frames -/

/-- Every byte of memory reads as before, at every address. -/
def SameMem (s t : State) : Prop := ∀ a : Word, t.memRead a = s.memRead a

/-- Every general register but those of `except` holds what it held. -/
def SameRegs (s t : State) (except : Reg → Prop) : Prop := ∀ r : Reg, ¬ except r → t.getV r = s.getV r

/-- Only PC may differ: every register, every byte of memory and every other field of the state is as before. -/
def OnlyPc (s t : State) : Prop :=
  SameRegs s t (fun _ => False) ∧ SameMem s t ∧ t = { s with pc := t.pc }

/-- Only PC and the registers of `except` may differ. -/
def OnlyRegs (s t : State) (except : Reg → Prop) : Prop :=
  SameRegs s t except ∧ SameMem s t ∧ t = { s with v := t.v, pc := t.pc }

/-- PC is `n` further, modulo 2^16 (10_state.md R21). -/
def PcPlus (s t : State) (n : Nat) : Prop := t.pc.toNat = (s.pc.toNat + n) % 65536

/-- The registers an instruction may write: the destination it names, and VF where it writes a flag (10_state.md R16, R18). -/
def MayWriteReg (c : Config) (r : Reg) : Instr → Prop
  | .ldVxKk x _ | .addVxKk x _ | .ldVxVy x _ | .rndVxKk x _ | .ldVxDt x => r = x
  | .orVxVy x _ | .andVxVy x _ | .xorVxVy x _ => r = x ∨ (c.qlogic = .reset ∧ r = vf)
  | .addVxVy x _ | .subVxVy x _ | .shrVxVy x _ | .subnVxVy x _ | .shlVxVy x _ => r = x ∨ r = vf
  | .drwVxVyN _ _ _ => r = vf
  | .addIVx _ => c.qaddi = .overflow ∧ r = vf
  | .ldVxMemI x => r.val ≤ x.val
  | .sys _ | .cls | .ret | .jp _ | .call _ | .seVxKk _ _ | .sneVxKk _ _ | .seVxVy _ _ | .sneVxVy _ _ | .ldINnn _ | .jpV0Nnn _
  | .skpVx _ | .sknpVx _ | .ldVxK _ | .ldDtVx _ | .ldStVx _ | .ldFVx _ | .ldBVx _ | .ldMemIVx _ => False

/-! ### Results -/

/-- What `WriteResultAndFlag(x, res, f)` leaves in `V[x]` and VF (41_alu.md R64): with `x = F` the later write remains. -/
def ResultAndFlag (s t : State) (x : Reg) (res f : Byte) : Prop :=
  if x = vf then t.getV vf = (match s.cfg.qflag with | .flagLast => f | .resultLast => res)
  else t.getV x = res ∧ t.getV vf = f

/-- The effect of an instruction that writes a result to `V[x]` and a flag to VF: those two registers, and PC 2 further. -/
def FlagEffect (s t : State) (x : Reg) (res f : Byte) : Prop :=
  ResultAndFlag s t x res f ∧ PcPlus s t 2 ∧ OnlyRegs s t (fun r => r = x ∨ r = vf)

/-- The effect of a logic instruction (41_alu.md R67): under `preserve` only `V[x]` and PC may differ; under `reset` VF is
written too, with 0. -/
def LogicEffect (s t : State) (x : Reg) (res : Byte) : Prop :=
  match s.cfg.qlogic with
  | .preserve => t.getV x = res ∧ PcPlus s t 2 ∧ OnlyRegs s t (fun r => r = x)
  | .reset => FlagEffect s t x res 0

/-- The flag of a subtract `a - b` (41_alu.md R65). -/
def NoBorrowFlag (c : Config) (a b : Byte) : Byte :=
  match c.qborrow with
  | .ge => if a.toNat ≥ b.toNat then 1 else 0
  | .gt => if a.toNat > b.toNat then 1 else 0

/-- The source of a shift (41_alu.md R66). -/
def ShiftSource (s : State) (x y : Reg) : Byte := if s.cfg.qshift = .vx then s.getV x else s.getV y

/-- The value Fx55 and Fx65 leave in I (44_memory_index.md R91, R92). -/
def IndexAfter (s t : State) (x : Reg) : Prop :=
  match s.cfg.qmemi with
  | .unchanged => t.i = s.i
  | .plusXPlus1 => t.i.toNat = (s.i.toNat + x.val + 1) % 65536
  | .plusX => t.i.toNat = (s.i.toNat + x.val) % 65536

/-- A lit pixel of the sprite covers a pixel that is set, which the draw turns off (45_display.md R96). -/
def FrameHit (s : State) (lit : Fin 64 → Fin 32 → Prop) : Prop := ∃ X Y, lit X Y ∧ Frame.pixel s.fb X Y = true

/-- The sprite of `n` rows at `I`, placed at `(px, py)`, has a lit pixel at column `X`, row `Y` (45_display.md R95, R96). -/
def SpriteLit (s : State) (px py n : Nat) (X : Fin 64) (Y : Fin 32) : Prop :=
  ∃ r c : Nat, r < n ∧ c < 8 ∧ (s.memRead (s.effAddr r)).getLsbD (7 - c) = true ∧
    X.val = (px + c) % 64 ∧ Y.val = (py + r) % 32

/-! ### Faults -/

/-- Why a step raises the fault `f` at `s` (60_exceptions.md R106). -/
def FaultCause (f : Fault) (s : State) : Prop :=
  match f with
  | .unknownOpcode =>
    (∃ w, decode s.fetch = .unknown w) ∨ (s.cfg.qsys = .fault ∧ ∃ nnn, decode s.fetch = .known (.sys nnn))
  | .stackOverflow => s.sp.val = 16 ∧ ∃ nnn, decode s.fetch = .known (.call nnn)
  | .stackUnderflow => s.sp.val = 0 ∧ decode s.fetch = .known .ret

/-! ### The invariant -/

/-- What holds of the machine at reset and after every step and host event. -/
structure State.Inv (s : State) : Prop where
  /-- Memory is in its canonical form. -/
  memWf : Memory.wf s.cfg s.mem
  /-- The machine is not both faulted and waiting: a step checks FAULT, then WAIT (60_exceptions.md R110). -/
  oneHalt : s.fault = none ∨ s.wait = none
  /-- While `WAIT = some(x)`, PC holds the address of the Fx0A that set it (10_state.md R28). -/
  waitAtKeyWait : ∀ x, s.wait = some x → decode s.fetch = .known (.ldVxK x)
  /-- While `FAULT = some(f)`, PC holds the address of the instruction that raised it (60_exceptions.md R106, R109). -/
  faultAtCause : ∀ f, s.fault = some f → FaultCause f s

/-- A host event that the invariant survives: a restore is of a captured state, which met it (70_reset_and_hazards.md R126). -/
def Event.Admissible (e : Event) : Prop :=
  match e with
  | .restore snapshot => snapshot.Inv
  | _ => True

end Sys2Proof.Machine
end

