-- ==== Sys2Proof/Certificates/Slice0/Obligations.lean ====
section
/-! DEFINITION. The statements for the provers. Each is a rule of spec/ about what the machine or an instruction does; what rests
on a choice of the spec (92_eei_decisions.md) or of the model (notes/assumptions) says so in its docstring. A frame written
`t = { s with ... }` names every field that may differ. -/

open Sys2Proof Sys2Proof.Machine

/-! ### Encoding -/

/-- The decoder gives back every well-formed instruction, with every operand at every value. The rule marks the inverse as its
own inference (30_encoding.md, section 4). -/
def Obligations.DecodeEncodeRoundTrip : Prop :=
  ∀ i : Instr, i.WellFormed → decode (encode i) = .known i

/-- Every known word is the encoding of the well-formed instruction it decodes to (30_encoding.md, section 4). -/
def Obligations.EncodeDecodeRoundTrip : Prop :=
  ∀ (w : Word) (i : Instr), decode w = .known i → i.WellFormed ∧ encode i = w

/-- The unknown words are those of the table of 30_encoding.md section 3, by the strict reading that is the spec's decision
D30, and an unknown word is reported as itself. -/
def Obligations.UnknownWordsAreTheListed : Prop :=
  ∀ w : Word,
    ((∃ u, decode w = .unknown u) ↔
      (w.toNat / 4096 = 5 ∧ w.toNat % 16 ≠ 0) ∨
      (w.toNat / 4096 = 8 ∧ w.toNat % 16 ∈ [8, 9, 0xA, 0xB, 0xC, 0xD, 0xF]) ∨
      (w.toNat / 4096 = 9 ∧ w.toNat % 16 ≠ 0) ∨
      (w.toNat / 4096 = 0xE ∧ w.toNat % 256 ≠ 0x9E ∧ w.toNat % 256 ≠ 0xA1) ∨
      (w.toNat / 4096 = 0xF ∧ w.toNat % 256 ∉ [0x07, 0x0A, 0x15, 0x18, 0x1E, 0x29, 0x33, 0x55, 0x65])) ∧
    ∀ u, decode w = .unknown u → u = w

/-- A word decodes to an instruction of a row exactly when it has the row's fixed bits, except that the two words of CLS and RET
also have those of SYS (30_encoding.md, section 2; the table is the spec's decision D1). -/
def Obligations.WordsSelectTheirTableRow : Prop :=
  (∀ (w : Word) (i : Instr), decode w = .known i → w &&& i.row.mask = i.row.pattern) ∧
  (∀ (w : Word) (i : Instr), w &&& i.row.mask = i.row.pattern →
    ∃ j, decode w = .known j ∧ (j.row = i.row ∨ (i.row = ⟨0x0000, 0xF000⟩ ∧ (j = .cls ∨ j = .ret))))

/-- Words written out from the encodings of 30_encoding.md decode to what they stand for (95_test_vectors.md, T-DEC and V1). -/
def Obligations.SampleWordsDecode : Prop :=
  decode 0x6A05 = .known (.ldVxKk 0xA 0x05) ∧ decode 0x3A05 = .known (.seVxKk 0xA 0x05) ∧
  decode 0x00E0 = .known .cls ∧ decode 0x00EE = .known .ret ∧ decode 0x00E1 = .known (.sys 0x0E1) ∧
  decode 0x1000 = .known (.jp 0x000) ∧ decode 0x5120 = .known (.seVxVy 0x1 0x2) ∧ decode 0x5121 = .unknown 0x5121 ∧
  decode 0x800E = .known (.shlVxVy 0x0 0x0) ∧ decode 0x800F = .unknown 0x800F ∧
  decode 0xD125 = .known (.drwVxVyN 0x1 0x2 0x5) ∧ decode 0xEFA1 = .known (.sknpVx 0xF) ∧
  decode 0xF065 = .known (.ldVxMemI 0x0) ∧ decode 0xFFFF = .unknown 0xFFFF

/-- The assembler and the disassembler are inverse to each other: every well-formed instruction is assembled back from its line, and
a line that is assembled is the line of a well-formed instruction, so an operand out of its range is refused (30_encoding.md,
section 4; the mnemonics and the syntax are the spec's decision D33, the refusal of SYS 0x0E0 and SYS 0x0EE log entry 17). -/
def Obligations.AssemblerAndDisassemblerAgree : Prop :=
  (∀ i : Instr, i.WellFormed → assemble (disassemble i) = some i) ∧
  (∀ (l : AsmLine) (i : Instr), assemble l = some i → i.WellFormed ∧ disassemble i = l)

/-! ### The step -/

/-- When neither gate holds and the two bytes at PC and PC + 1, each masked to 12 bits, decode to an instruction, the step is
that instruction's effect (40_execution_cycle.md, section 1). -/
def Obligations.StepRunsTheDecodedInstruction : Prop :=
  ∀ (s : State) (i : Instr), s.fault = none → s.wait = none →
    decode (s.memRead s.pc ++ s.memRead (s.pc + 1)) = .known i → step s = exec i s

/-- A step requested on a faulted machine has no effect and returns the recorded fault again. The latch is the spec's decision
D14; that the step outcome `fault` is this return is the model's choice, log entry 5. -/
def Obligations.FaultedStepReturnsTheFault : Prop :=
  ∀ (s : State) (f : Fault), s.fault = some f → step s = .fault f ∧ s.afterStep = s ∧ s.stepResult = some f

/-- A step taken while a key wait is pending changes nothing; `FAULT` is checked first (R56). -/
def Obligations.WaitingStepChangesNothing : Prop :=
  ∀ (s : State) (x : Reg), s.fault = none → s.wait = some x → step s = .next s

/-- Executing an unknown word raises `UnknownOpcode`, and execution halts (60_exceptions.md, section 1). That a halted machine's step
answers the outcome `fault` is the model's choice, log entry 5. -/
def Obligations.UnknownWordRaisesUnknownOpcode : Prop :=
  ∀ (s : State) (w : Word), s.fault = none → s.wait = none →
    decode (s.memRead s.pc ++ s.memRead (s.pc + 1)) = .unknown w →
    step s = .next { s with fault := some .unknownOpcode } ∧
    step { s with fault := some .unknownOpcode } = .fault .unknownOpcode

/-- A step that raises a fault changes nothing but `FAULT`; the host is told, and no step is taken from then on (60_exceptions.md,
section 1). That a halted machine's step answers the outcome `fault` is the model's choice, log entry 5. -/
def Obligations.FaultEntryIsPrecise : Prop :=
  ∀ (s t : State) (f : Fault), s.fault = none → step s = .next t → t.fault = some f →
    t = { s with fault := some f } ∧ s.stepResult = some f ∧ step t = .fault f

/-- A step raises a fault exactly for the causes of 60_exceptions.md section 1: an unknown word, or SYS under `QSYS = fault`;
CALL with 16 addresses; RET with none. -/
def Obligations.FaultsHaveExactlyTheseCauses : Prop :=
  ∀ (s : State) (f : Fault), s.fault = none → s.wait = none →
    ((∃ t, step s = .next t ∧ t.fault = some f) ↔ FaultCause f s)

/-- A machine that has no fault recorded always steps to a next state: no instruction is refused and none stops the step. -/
def Obligations.UnfaultedStepCompletes : Prop :=
  ∀ s : State, s.fault = none → ∃ t, step s = .next t

/-! ### Invariants -/

/-- Every step keeps the invariant: memory canonical, fault and wait not both, PC at the Fx0A that waits or at the instruction
that faulted. The canonical form is the model's, log entry 4. -/
def Obligations.StepKeepsInvariant : Prop :=
  ∀ s t : State, s.Inv → step s = .next t → t.Inv

/-- The reset state meets the invariant. The canonical form of memory, one part of it, is the model's, log entry 4. -/
def Obligations.ResetMeetsInvariant : Prop := State.reset.Inv

/-- Every host event keeps the invariant, a restore when what it restores met it. The canonical form of memory, one part of the
invariant, is the model's, log entry 4. -/
def Obligations.HostEventsKeepInvariant : Prop :=
  ∀ (e : Event) (s : State), s.Inv → e.Admissible → (e.apply s).Inv

/-! ### Rules over all instructions -/

/-- Who writes what: memory only Fx33 and Fx55; a register only the instructions that name it as destination, or write a flag to
it; PC every instruction but Fx0A and one that raises a fault; the stack only CALL and RET; the framebuffer and DIRTY only DRW and
CLS (and no instruction clears DIRTY); I only Annn, Fx1E, Fx29 and, unless `QMEMI = unchanged`, Fx55 and Fx65; DT only Fx15; ST only
Fx18; WAIT only Fx0A; FAULT only SYS, CALL and RET; the keys and the parameters none; and only Cxkk draws a random byte
(10_state.md, sections 1 to 9, 20_memory.md, section 1; the draw count is the model's, log entry 2). -/
def Obligations.EachFieldHasItsWriters : Prop :=
  ∀ (i : Instr) (s t : State), exec i s = .next t →
    ((∀ x, i ≠ .ldBVx x ∧ i ≠ .ldMemIVx x) → t.mem = s.mem) ∧
    (∀ r, ¬ MayWriteReg s.cfg r i → t.getV r = s.getV r) ∧
    ((∃ x, i = .ldVxK x) ∨ t.fault ≠ s.fault → t.pc = s.pc) ∧
    (i ≠ .ret → (∀ nnn, i ≠ .call nnn ∧ i ≠ .sys nnn) → t.fault = s.fault) ∧
    (i ≠ .ret → (∀ nnn, i ≠ .call nnn) → t.sp = s.sp ∧ t.stack = s.stack) ∧
    (i ≠ .cls → (∀ x y n, i ≠ .drwVxVyN x y n) → t.fb = s.fb ∧ t.dirty = s.dirty) ∧
    (s.dirty = true → t.dirty = true) ∧
    ((∀ nnn, i ≠ .ldINnn nnn) → (∀ x, i ≠ .addIVx x ∧ i ≠ .ldFVx x) →
      (s.cfg.qmemi = .unchanged ∨ ∀ x, i ≠ .ldMemIVx x ∧ i ≠ .ldVxMemI x) → t.i = s.i) ∧
    ((∀ x, i ≠ .ldDtVx x) → t.dt = s.dt) ∧ ((∀ x, i ≠ .ldStVx x) → t.st = s.st) ∧
    ((∀ x, i ≠ .ldVxK x) → t.wait = s.wait) ∧ t.keys = s.keys ∧ t.cfg = s.cfg ∧
    ((∀ x kk, i ≠ .rndVxKk x kk) → t.draws = s.draws)

/-- Only Fx33 and Fx55 write memory: any other instruction leaves every byte as it was (20_memory.md, section 1). -/
def Obligations.OnlyStoresWriteMemory : Prop :=
  ∀ (i : Instr) (s t : State), exec i s = .next t →
    (∀ x, i ≠ .ldBVx x ∧ i ≠ .ldMemIVx x) → ∀ a : Word, t.memRead a = s.memRead a

/-- VF changes only as the flag of the listed instructions, or as the destination that an instruction names (10_state.md,
section 2). -/
def Obligations.VfChangesOnlyAsListed : Prop :=
  ∀ (i : Instr) (s t : State), exec i s = .next t → t.getV vf ≠ s.getV vf →
    (∃ x y, i = .addVxVy x y ∨ i = .subVxVy x y ∨ i = .subnVxVy x y ∨ i = .shrVxVy x y ∨ i = .shlVxVy x y) ∨
    (s.cfg.qlogic = .reset ∧ ∃ x y, i = .orVxVy x y ∨ i = .andVxVy x y ∨ i = .xorVxVy x y) ∨
    (∃ x y n, i = .drwVxVyN x y n) ∨ (s.cfg.qaddi = .overflow ∧ ∃ x, i = .addIVx x) ∨
    (∃ kk, i = .ldVxKk vf kk ∨ i = .addVxKk vf kk ∨ i = .rndVxKk vf kk) ∨
    (∃ y, i = .ldVxVy vf y ∨ i = .orVxVy vf y ∨ i = .andVxVy vf y ∨ i = .xorVxVy vf y) ∨
    i = .ldVxDt vf ∨ i = .ldVxMemI vf

/-- An instruction that is no skip, jump, call, return or key wait leaves PC 2 further, unless it raises a fault, which leaves
PC (the spec's summary table, 40_execution_cycle.md section 2). -/
def Obligations.OtherInstructionsAdvanceByTwo : Prop :=
  ∀ (i : Instr) (s t : State), s.fault = none → exec i s = .next t →
    (t.fault ≠ none → t.pc = s.pc) ∧
    (t.fault = none → i ≠ .ret → (∀ nnn, i ≠ .jp nnn ∧ i ≠ .call nnn ∧ i ≠ .jpV0Nnn nnn) →
      (∀ x kk, i ≠ .seVxKk x kk ∧ i ≠ .sneVxKk x kk) → (∀ x y, i ≠ .seVxVy x y ∧ i ≠ .sneVxVy x y) →
      (∀ x, i ≠ .skpVx x ∧ i ≠ .sknpVx x ∧ i ≠ .ldVxK x) → PcPlus s t 2)

/-! ### Register loads and arithmetic/logic -/

/-- 6xkk: `V[x] <- kk` (R68). -/
def Obligations.LoadImmediateSetsRegister : Prop :=
  ∀ (x : Reg) (kk : Byte) (s : State),
    decode (0x6#4 ++ (BitVec.ofFin x : BitVec 4) ++ kk) = .known (.ldVxKk x kk) ∧
    ∃ t, exec (.ldVxKk x kk) s = .next t ∧ t.getV x = kk ∧ PcPlus s t 2 ∧ OnlyRegs s t (fun r => r = x)

/-- 7xkk: `V[x] <- mod_8(V[x] + kk)`, no flag. That VF is no carry here is the spec's decision D32. -/
def Obligations.AddImmediateWritesNoFlag : Prop :=
  ∀ (x : Reg) (kk : Byte) (s : State),
    decode (0x7#4 ++ (BitVec.ofFin x : BitVec 4) ++ kk) = .known (.addVxKk x kk) ∧
    ∃ t, exec (.addVxKk x kk) s = .next t ∧ (t.getV x).toNat = ((s.getV x).toNat + kk.toNat) % 256 ∧
      PcPlus s t 2 ∧ OnlyRegs s t (fun r => r = x)

/-- 8xy0: `V[x] <- V[y]` (R70). -/
def Obligations.CopyRegisterSetsRegister : Prop :=
  ∀ (x y : Reg) (s : State),
    decode (0x8#4 ++ (BitVec.ofFin x : BitVec 4) ++ (BitVec.ofFin y : BitVec 4) ++ 0x0#4) = .known (.ldVxVy x y) ∧
    ∃ t, exec (.ldVxVy x y) s = .next t ∧ t.getV x = s.getV y ∧ PcPlus s t 2 ∧ OnlyRegs s t (fun r => r = x)

/-- 8xy1, 8xy2, 8xy3: bitwise OR, AND and XOR, VF by `QLOGIC` (41_alu.md, section 3; the parameters are the spec's decisions D5 and
D6, and every value of them is covered). -/
def Obligations.LogicInstructionsCombineBitwise : Prop :=
  ∀ (x y : Reg) (s : State),
    (decode (0x8#4 ++ (BitVec.ofFin x : BitVec 4) ++ (BitVec.ofFin y : BitVec 4) ++ 0x1#4) = .known (.orVxVy x y) ∧
      ∃ t, exec (.orVxVy x y) s = .next t ∧ LogicEffect s t x (s.getV x ||| s.getV y)) ∧
    (decode (0x8#4 ++ (BitVec.ofFin x : BitVec 4) ++ (BitVec.ofFin y : BitVec 4) ++ 0x2#4) = .known (.andVxVy x y) ∧
      ∃ t, exec (.andVxVy x y) s = .next t ∧ LogicEffect s t x (s.getV x &&& s.getV y)) ∧
    (decode (0x8#4 ++ (BitVec.ofFin x : BitVec 4) ++ (BitVec.ofFin y : BitVec 4) ++ 0x3#4) = .known (.xorVxVy x y) ∧
      ∃ t, exec (.xorVxVy x y) s = .next t ∧ LogicEffect s t x (s.getV x ^^^ s.getV y))

/-- 8xy4: the sum modulo 256 and the carry, which is 1 exactly when the exact sum exceeds 0xFF (41_alu.md, section 4; the order of the
two writes is the spec's decision D6, both orders covered). -/
def Obligations.AddRegistersSetsCarry : Prop :=
  ∀ (x y : Reg) (s : State),
    decode (0x8#4 ++ (BitVec.ofFin x : BitVec 4) ++ (BitVec.ofFin y : BitVec 4) ++ 0x4#4) = .known (.addVxVy x y) ∧
    ∃ t, exec (.addVxVy x y) s = .next t ∧
      FlagEffect s t x (BitVec.ofNat 8 ((s.getV x).toNat + (s.getV y).toNat))
        (if (s.getV x).toNat + (s.getV y).toNat > 0xFF then 1 else 0)

/-- 8xy5 and 8xy7: the difference modulo 256 and the no-borrow flag (41_alu.md, section 4; the sense of the flag and the parameters are
the spec's decisions D6 and D8). -/
def Obligations.SubtractionsSetNoBorrow : Prop :=
  ∀ (x y : Reg) (s : State),
    (decode (0x8#4 ++ (BitVec.ofFin x : BitVec 4) ++ (BitVec.ofFin y : BitVec 4) ++ 0x5#4) = .known (.subVxVy x y) ∧
      ∃ t, exec (.subVxVy x y) s = .next t ∧
        FlagEffect s t x (BitVec.ofNat 8 ((s.getV x).toNat + 256 - (s.getV y).toNat))
          (NoBorrowFlag s.cfg (s.getV x) (s.getV y))) ∧
    (decode (0x8#4 ++ (BitVec.ofFin x : BitVec 4) ++ (BitVec.ofFin y : BitVec 4) ++ 0x7#4) = .known (.subnVxVy x y) ∧
      ∃ t, exec (.subnVxVy x y) s = .next t ∧
        FlagEffect s t x (BitVec.ofNat 8 ((s.getV y).toNat + 256 - (s.getV x).toNat))
          (NoBorrowFlag s.cfg (s.getV y) (s.getV x)))

/-- 8xy6 and 8xyE: the source shifted by one, and the bit shifted out (41_alu.md, section 4; the parameters are the spec's decisions D2
and D6). -/
def Obligations.ShiftsSetShiftedOutBit : Prop :=
  ∀ (x y : Reg) (s : State),
    (decode (0x8#4 ++ (BitVec.ofFin x : BitVec 4) ++ (BitVec.ofFin y : BitVec 4) ++ 0x6#4) = .known (.shrVxVy x y) ∧
      ∃ t, exec (.shrVxVy x y) s = .next t ∧
        FlagEffect s t x (BitVec.ofNat 8 ((ShiftSource s x y).toNat / 2))
          (BitVec.ofNat 8 ((ShiftSource s x y).toNat % 2))) ∧
    (decode (0x8#4 ++ (BitVec.ofFin x : BitVec 4) ++ (BitVec.ofFin y : BitVec 4) ++ 0xE#4) = .known (.shlVxVy x y) ∧
      ∃ t, exec (.shlVxVy x y) s = .next t ∧
        FlagEffect s t x (BitVec.ofNat 8 ((ShiftSource s x y).toNat * 2))
          (BitVec.ofNat 8 ((ShiftSource s x y).toNat / 128)))

/-! ### Conditional skips -/

/-- 3xkk and 4xkk: PC 4 further when the register equals (differs from) the immediate, else 2 (R80, R81). -/
def Obligations.SkipsOnImmediate : Prop :=
  ∀ (x : Reg) (kk : Byte) (s : State),
    (decode (0x3#4 ++ (BitVec.ofFin x : BitVec 4) ++ kk) = .known (.seVxKk x kk) ∧
      ∃ t, exec (.seVxKk x kk) s = .next t ∧ PcPlus s t (if s.getV x = kk then 4 else 2) ∧ OnlyPc s t) ∧
    (decode (0x4#4 ++ (BitVec.ofFin x : BitVec 4) ++ kk) = .known (.sneVxKk x kk) ∧
      ∃ t, exec (.sneVxKk x kk) s = .next t ∧ PcPlus s t (if s.getV x = kk then 2 else 4) ∧ OnlyPc s t)

/-- 5xy0 and 9xy0: PC 4 further when the registers are equal (differ), else 2 (42_skips.md); another low nibble is an
unknown word (the spec's decision D30). -/
def Obligations.SkipsOnRegisters : Prop :=
  ∀ (x y : Reg) (s : State),
    (decode (0x5#4 ++ (BitVec.ofFin x : BitVec 4) ++ (BitVec.ofFin y : BitVec 4) ++ 0x0#4) = .known (.seVxVy x y) ∧
      ∃ t, exec (.seVxVy x y) s = .next t ∧ PcPlus s t (if s.getV x = s.getV y then 4 else 2) ∧ OnlyPc s t) ∧
    (decode (0x9#4 ++ (BitVec.ofFin x : BitVec 4) ++ (BitVec.ofFin y : BitVec 4) ++ 0x0#4) = .known (.sneVxVy x y) ∧
      ∃ t, exec (.sneVxVy x y) s = .next t ∧ PcPlus s t (if s.getV x = s.getV y then 2 else 4) ∧ OnlyPc s t) ∧
    ∀ n : BitVec 4, n ≠ 0#4 →
      (∃ w, decode (0x5#4 ++ (BitVec.ofFin x : BitVec 4) ++ (BitVec.ofFin y : BitVec 4) ++ n) = .unknown w) ∧
      (∃ w, decode (0x9#4 ++ (BitVec.ofFin x : BitVec 4) ++ (BitVec.ofFin y : BitVec 4) ++ n) = .unknown w)

/-! ### Jumps, calls, returns and SYS -/

/-- 1nnn: `PC <- zext_16(nnn)` (R84). -/
def Obligations.JumpSetsPc : Prop :=
  ∀ (nnn : Addr) (s : State),
    decode (0x1#4 ++ nnn) = .known (.jp nnn) ∧
    ∃ t, exec (.jp nnn) s = .next t ∧ t.pc.toNat = nnn.toNat ∧ OnlyPc s t

/-- 2nnn: the return address `PC + 2` pushed and PC at `nnn`; with 16 addresses on the stack, `StackOverflow` and nothing else
(R85). -/
def Obligations.CallPushesAndJumps : Prop :=
  ∀ (nnn : Addr) (s : State),
    decode (0x2#4 ++ nnn) = .known (.call nnn) ∧
    (s.sp.val < 16 →
      ∃ t, exec (.call nnn) s = .next t ∧ t.sp.val = s.sp.val + 1 ∧ t.pc.toNat = nnn.toNat ∧
        (∀ k : Fin 16, t.stack[k] =
          if k.val = s.sp.val then BitVec.ofNat 16 ((s.pc.toNat + 2) % 65536) else s.stack[k]) ∧
        SameRegs s t (fun _ => False) ∧ SameMem s t ∧ t = { s with sp := t.sp, stack := t.stack, pc := t.pc }) ∧
    (s.sp.val = 16 → exec (.call nnn) s = .next { s with fault := some .stackOverflow })

/-- 00EE: PC takes the top address and the depth falls by one, the entry staying where it is; with an empty stack,
`StackUnderflow` and nothing else (R86). -/
def Obligations.ReturnPopsThePc : Prop :=
  decode 0x00EE = .known .ret ∧
  ∀ s : State,
    (∀ k : Fin 16, s.sp.val = k.val + 1 →
      ∃ t, exec .ret s = .next t ∧ t.sp.val = k.val ∧ t.pc = s.stack[k] ∧ t.stack = s.stack ∧
        SameRegs s t (fun _ => False) ∧ SameMem s t ∧ t = { s with sp := t.sp, pc := t.pc }) ∧
    (s.sp.val = 0 → exec .ret s = .next { s with fault := some .stackUnderflow })

/-- After a call that was not refused by a full stack, a return from any state with that stack and depth lands behind the call
at the old depth (95_test_vectors.md, V2). -/
def Obligations.ReturnUndoesCall : Prop :=
  ∀ (nnn : Addr) (s t u : State), s.sp.val < 16 → exec (.call nnn) s = .next t → u.sp = t.sp → u.stack = t.stack →
    ∃ w, exec .ret u = .next w ∧ PcPlus s w 2 ∧ w.sp = s.sp

/-- Bnnn: PC takes the exact sum of `nnn` and V0, or `V[nnn[11:8]]` under `QJUMP = vx` (43_control.md; the parameter is the
spec's decision D4). -/
def Obligations.JumpPlusRegisterSetsPc : Prop :=
  ∀ (nnn : Addr) (s : State),
    decode (0xB#4 ++ nnn) = .known (.jpV0Nnn nnn) ∧
    ∃ t, exec (.jpV0Nnn nnn) s = .next t ∧ OnlyPc s t ∧
      (s.cfg.qjump = .v0 → t.pc.toNat = nnn.toNat + (s.getV 0).toNat) ∧
      (s.cfg.qjump = .vx → t.pc.toNat = nnn.toNat + (s.getV (Fin.ofNat 16 (nnn.toNat / 256))).toNat)

/-- 0nnn: PC 2 further and nothing else under `QSYS = nop`, `UnknownOpcode` under `QSYS = fault` (43_control.md; the parameter
is the spec's decision D12). -/
def Obligations.SysAdvancesOrFaults : Prop :=
  ∀ (nnn : Addr) (s : State),
    (nnn ≠ 0x0E0#12 → nnn ≠ 0x0EE#12 → decode (0x0#4 ++ nnn) = .known (.sys nnn)) ∧
    (s.cfg.qsys = .nop → ∃ t, exec (.sys nnn) s = .next t ∧ PcPlus s t 2 ∧ OnlyPc s t) ∧
    (s.cfg.qsys = .fault → exec (.sys nnn) s = .next { s with fault := some .unknownOpcode })

/-! ### Index register and memory -/

/-- Annn: `I <- zext_16(nnn)` (R89). -/
def Obligations.LoadIndexSetsI : Prop :=
  ∀ (nnn : Addr) (s : State),
    decode (0xA#4 ++ nnn) = .known (.ldINnn nnn) ∧
    ∃ t, exec (.ldINnn nnn) s = .next t ∧ t.i.toNat = nnn.toNat ∧ PcPlus s t 2 ∧
      SameRegs s t (fun _ => False) ∧ SameMem s t ∧ t = { s with i := t.i, pc := t.pc }

/-- Fx1E: I takes the 16-bit sum (the spec's decision D16); VF is written, with 1 exactly when the sum exceeds 0xFFF, only under
`QADDI = overflow` (the spec's decision D7). -/
def Obligations.AddToIndexKeepsSixteenBits : Prop :=
  ∀ (x : Reg) (s : State),
    decode (0xF#4 ++ (BitVec.ofFin x : BitVec 4) ++ 0x1E#8) = .known (.addIVx x) ∧
    ∃ t, exec (.addIVx x) s = .next t ∧ t.i.toNat = (s.i.toNat + (s.getV x).toNat) % 65536 ∧ PcPlus s t 2 ∧
      (s.cfg.qaddi = .unaffected → SameRegs s t (fun _ => False)) ∧
      (s.cfg.qaddi = .overflow → SameRegs s t (fun r => r = vf) ∧
        t.getV vf = if s.i.toNat + (s.getV x).toNat > 0xFFF then 1 else 0) ∧
      SameMem s t ∧ t = { s with i := t.i, v := t.v, pc := t.pc }

/-- Fx55: V0..Vx stored at `I + k`, each address masked; no other byte changes; I by `QMEMI` (the spec's decisions D3, D24). -/
def Obligations.StoreRegistersWritesTheBlock : Prop :=
  ∀ (x : Reg) (s : State),
    decode (0xF#4 ++ (BitVec.ofFin x : BitVec 4) ++ 0x55#8) = .known (.ldMemIVx x) ∧
    ∃ t, exec (.ldMemIVx x) s = .next t ∧
      (∀ k : Reg, k.val ≤ x.val → t.memRead (s.effAddr k.val) = s.getV k) ∧
      (∀ a : Word, (∀ k : Reg, k.val ≤ x.val → mask12 (s.effAddr k.val) ≠ mask12 a) → t.memRead a = s.memRead a) ∧
      IndexAfter s t x ∧ PcPlus s t 2 ∧ SameRegs s t (fun _ => False) ∧
      t = { s with mem := t.mem, i := t.i, pc := t.pc }

/-- Fx65: V0..Vx loaded from `I + k`, each address masked; I by `QMEMI` (the spec's decisions D3, D24). -/
def Obligations.LoadRegistersReadsTheBlock : Prop :=
  ∀ (x : Reg) (s : State),
    decode (0xF#4 ++ (BitVec.ofFin x : BitVec 4) ++ 0x65#8) = .known (.ldVxMemI x) ∧
    ∃ t, exec (.ldVxMemI x) s = .next t ∧
      (∀ k : Reg, k.val ≤ x.val → t.getV k = s.memRead (s.effAddr k.val)) ∧
      SameRegs s t (fun k => k.val ≤ x.val) ∧ IndexAfter s t x ∧ PcPlus s t 2 ∧ SameMem s t ∧
      t = { s with v := t.v, i := t.i, pc := t.pc }

/-- What Fx55 stored, Fx65 loads back into the same registers, from any state with that memory, those parameters and the same I
(44_memory_index.md). -/
def Obligations.LoadReadsBackWhatStoreWrote : Prop :=
  ∀ (x : Reg) (s t u : State), exec (.ldMemIVx x) s = .next t → u.mem = t.mem → u.cfg = t.cfg → u.i = s.i →
    ∃ w, exec (.ldVxMemI x) u = .next w ∧ ∀ k : Reg, k.val ≤ x.val → w.getV k = s.getV k

/-- Fx33: the decimal digits of `V[x]`, hundreds at I, tens at I + 1, ones at I + 2 (the order is the spec's decision D23), and no
other byte. -/
def Obligations.DecimalDigitsAreStored : Prop :=
  ∀ (x : Reg) (s : State),
    decode (0xF#4 ++ (BitVec.ofFin x : BitVec 4) ++ 0x33#8) = .known (.ldBVx x) ∧
    ∃ t, exec (.ldBVx x) s = .next t ∧
      (t.memRead (s.effAddr 0)).toNat = (s.getV x).toNat / 100 ∧
      (t.memRead (s.effAddr 1)).toNat = (s.getV x).toNat / 10 % 10 ∧
      (t.memRead (s.effAddr 2)).toNat = (s.getV x).toNat % 10 ∧
      (∀ a : Word, (∀ k < 3, mask12 (s.effAddr k) ≠ mask12 a) → t.memRead a = s.memRead a) ∧
      PcPlus s t 2 ∧ SameRegs s t (fun _ => False) ∧ t = { s with mem := t.mem, pc := t.pc }

/-- Fx29: I at the glyph of the low nibble of `V[x]` (that the high nibble is ignored is the spec's decision D11). -/
def Obligations.FontAddressPointsAtTheGlyph : Prop :=
  ∀ (x : Reg) (s : State),
    decode (0xF#4 ++ (BitVec.ofFin x : BitVec 4) ++ 0x29#8) = .known (.ldFVx x) ∧
    ∃ t, exec (.ldFVx x) s = .next t ∧ t.i.toNat = s.cfg.fontBase.val + 5 * ((s.getV x).toNat % 16) ∧ PcPlus s t 2 ∧
      SameRegs s t (fun _ => False) ∧ SameMem s t ∧ t = { s with i := t.i, pc := t.pc }

/-- Two canonical memories that read alike at every address are the same list: equal memories are equal data. The canonical form
is the model's, log entry 4. -/
def Obligations.CanonicalMemoryIsExtensional : Prop :=
  ∀ (c : Config) (m n : Memory), Memory.wf c m → Memory.wf c n →
    (∀ a < 4096, Memory.read c m a = Memory.read c n a) → m = n

/-- A word stored where the machine fetches is the word the next step executes, at every PC, 0xFFF and odd ones too (20_memory.md,
section 5; `withFetchWord` is the model's, log entries 3 and 10). -/
def Obligations.StoredWordIsExecutedNext : Prop :=
  ∀ (s : State) (w : Word) (i : Instr), decode w = .known i →
    step (s.withFetchWord 16 w.toNat) = exec i (s.withFetchWord 16 w.toNat)

/-! ### Display -/

/-- Dxyn: a pixel is flipped exactly when the sprite is lit there, VF is 1 exactly when a set pixel was turned off, DIRTY is set,
and nothing else changes but PC (45_display.md; the wrap of every pixel, n = 0 and the bit order are the spec's decisions D17,
D18, D19). -/
def Obligations.DrawFlipsExactlyTheLitPixels : Prop :=
  ∀ (x y : Reg) (n : Fin 16) (s : State),
    decode (0xD#4 ++ (BitVec.ofFin x : BitVec 4) ++ (BitVec.ofFin y : BitVec 4) ++ (BitVec.ofFin n : BitVec 4)) =
      .known (.drwVxVyN x y n) ∧
    ∃ t, exec (.drwVxVyN x y n) s = .next t ∧
      (∀ X Y, SpriteLit s (s.getV x).toNat (s.getV y).toNat n.val X Y →
        Frame.pixel t.fb X Y = !Frame.pixel s.fb X Y) ∧
      (∀ X Y, ¬ SpriteLit s (s.getV x).toNat (s.getV y).toNat n.val X Y →
        Frame.pixel t.fb X Y = Frame.pixel s.fb X Y) ∧
      (FrameHit s (SpriteLit s (s.getV x).toNat (s.getV y).toNat n.val) → t.getV vf = 1) ∧
      (¬ FrameHit s (SpriteLit s (s.getV x).toNat (s.getV y).toNat n.val) → t.getV vf = 0) ∧
      t.dirty = true ∧ PcPlus s t 2 ∧ SameRegs s t (fun r => r = vf) ∧ SameMem s t ∧
      t = { s with fb := t.fb, v := t.v, dirty := t.dirty, pc := t.pc }

/-- Drawing a sprite and drawing it again, with coordinates that are not in VF, restores the framebuffer, and the second draw
collides exactly when the first one turned a clear pixel on (45_display.md). -/
def Obligations.DrawingTwiceRestoresTheFrame : Prop :=
  ∀ (x y : Reg) (n : Fin 16) (s t u : State), x ≠ vf → y ≠ vf →
    exec (.drwVxVyN x y n) s = .next t → exec (.drwVxVyN x y n) t = .next u →
    u.fb = s.fb ∧
    (u.getV vf = 1 ↔ ∃ X Y, SpriteLit s (s.getV x).toNat (s.getV y).toNat n.val X Y ∧ Frame.pixel s.fb X Y = false)

/-- 00E0: every pixel 0, DIRTY set, VF not written (45_display.md; that the instruction exists is the spec's decision D13). -/
def Obligations.ClearBlanksTheFrame : Prop :=
  decode 0x00E0 = .known .cls ∧
  ∀ s : State, ∃ t, exec .cls s = .next t ∧ (∀ X Y, Frame.pixel t.fb X Y = false) ∧ t.dirty = true ∧ PcPlus s t 2 ∧
    SameRegs s t (fun _ => False) ∧ SameMem s t ∧ t = { s with fb := t.fb, dirty := t.dirty, pc := t.pc }

/-! ### Keys, timers and random -/

/-- Ex9E and ExA1: PC 4 further when the key of the low nibble of `V[x]` is pressed (released), else 2 (the low nibble is the spec's
decision D21). -/
def Obligations.KeySkipsTestTheKeyLevel : Prop :=
  ∀ (x : Reg) (s : State),
    (decode (0xE#4 ++ (BitVec.ofFin x : BitVec 4) ++ 0x9E#8) = .known (.skpVx x) ∧
      ∃ t, exec (.skpVx x) s = .next t ∧
        PcPlus s t (if s.getKey (Fin.ofNat 16 (s.getV x).toNat) = true then 4 else 2) ∧ OnlyPc s t) ∧
    (decode (0xE#4 ++ (BitVec.ofFin x : BitVec 4) ++ 0xA1#8) = .known (.sknpVx x) ∧
      ∃ t, exec (.sknpVx x) s = .next t ∧
        PcPlus s t (if s.getKey (Fin.ofNat 16 (s.getV x).toNat) = true then 2 else 4) ∧ OnlyPc s t)

/-- Fx0A: the wait is recorded with its register and nothing else changes, PC neither; the steps that follow change nothing
(46_keys_timers_random.md; that it suspends with a key held is the spec's decision D22). -/
def Obligations.KeyWaitSuspends : Prop :=
  ∀ (x : Reg) (s : State),
    decode (0xF#4 ++ (BitVec.ofFin x : BitVec 4) ++ 0x0A#8) = .known (.ldVxK x) ∧
    ∃ t, exec (.ldVxK x) s = .next t ∧ t = { s with wait := some x } ∧ SameMem s t ∧
      (s.fault = none → step t = .next t)

/-- Fx07: `V[x] <- DT` (R102). -/
def Obligations.ReadDelayTimerSetsRegister : Prop :=
  ∀ (x : Reg) (s : State),
    decode (0xF#4 ++ (BitVec.ofFin x : BitVec 4) ++ 0x07#8) = .known (.ldVxDt x) ∧
    ∃ t, exec (.ldVxDt x) s = .next t ∧ t.getV x = s.dt ∧ PcPlus s t 2 ∧ OnlyRegs s t (fun r => r = x)

/-- Fx15 and Fx18: `DT <- V[x]` and `ST <- V[x]` (R103, R104). -/
def Obligations.TimerWritesSetTimers : Prop :=
  ∀ (x : Reg) (s : State),
    (decode (0xF#4 ++ (BitVec.ofFin x : BitVec 4) ++ 0x15#8) = .known (.ldDtVx x) ∧
      ∃ t, exec (.ldDtVx x) s = .next t ∧ t.dt = s.getV x ∧ PcPlus s t 2 ∧ SameRegs s t (fun _ => False) ∧ SameMem s t ∧
        t = { s with dt := t.dt, pc := t.pc }) ∧
    (decode (0xF#4 ++ (BitVec.ofFin x : BitVec 4) ++ 0x18#8) = .known (.ldStVx x) ∧
      ∃ t, exec (.ldStVx x) s = .next t ∧ t.st = s.getV x ∧ PcPlus s t 2 ∧ SameRegs s t (fun _ => False) ∧ SameMem s t ∧
        t = { s with st := t.st, pc := t.pc })

/-- Cxkk: `V[x]` takes the drawn byte masked by `kk`, for every value the free byte may have, and only bits set in `kk` can be 1
(46_keys_timers_random.md; the free draw is the spec's decision D27, the counter `draws` the model's, log entry 2). -/
def Obligations.RandomByteIsMasked : Prop :=
  ∀ (x : Reg) (kk : Byte) (s : State),
    decode (0xC#4 ++ (BitVec.ofFin x : BitVec 4) ++ kk) = .known (.rndVxKk x kk) ∧
    ∃ t, exec (.rndVxKk x kk) s = .next t ∧ t.getV x = Config.freeByte s.draws &&& kk ∧
      (∀ j, kk.getLsbD j = false → (t.getV x).getLsbD j = false) ∧ t.draws = s.draws + 1 ∧
      PcPlus s t 2 ∧ SameRegs s t (fun r => r = x) ∧ SameMem s t ∧
      t = { s with v := t.v, pc := t.pc, draws := t.draws }

/-! ### The host interface -/

/-- `n` ticks take `n` from each timer, never below zero, and change nothing else (60_exceptions.md, section 4; that a tick is
taken whatever WAIT and FAULT hold is the spec's decision D26). -/
def Obligations.TicksCountTheTimersDown : Prop :=
  ∀ (n : Nat) (s : State),
    (runEvents (List.replicate n .tick) s).dt.toNat = s.dt.toNat - n ∧
    (runEvents (List.replicate n .tick) s).st.toNat = s.st.toNat - n ∧
    runEvents (List.replicate n .tick) s =
      { s with dt := (runEvents (List.replicate n .tick) s).dt, st := (runEvents (List.replicate n .tick) s).st }

/-- A press of a released key while a wait is pending writes the key number, ends the wait and moves PC 2 further, and nothing else
changes but that key (60_exceptions.md, section 5; the spec's decision D22). -/
def Obligations.KeyPressResolvesTheWait : Prop :=
  ∀ (s : State) (x : Reg) (k : Key), s.wait = some x → s.getKey k = false →
    (s.keyDown k).getKey k = true ∧ (∀ j, j ≠ k → (s.keyDown k).getKey j = s.getKey j) ∧
    ((s.keyDown k).getV x).toNat = k.val ∧ (s.keyDown k).wait = none ∧ PcPlus s (s.keyDown k) 2 ∧
    SameRegs s (s.keyDown k) (fun r => r = x) ∧ SameMem s (s.keyDown k) ∧
    s.keyDown k = { s with keys := (s.keyDown k).keys, v := (s.keyDown k).v, wait := none, pc := (s.keyDown k).pc }

/-- The other host events: a press with no wait pending and a release set the one key and nothing else, a press of a key already
down changes nothing at all, the acknowledge clears DIRTY and nothing else, and the audio request is on exactly while ST is not
0 (60_exceptions.md, sections 5 and 6; the spec's decisions D20, D22, D25). -/
def Obligations.OtherHostEventsMoveOneThing : Prop :=
  ∀ (s : State) (k : Key),
    (s.wait = none → s.keyDown k = { s with keys := (s.keyDown k).keys } ∧
      ∀ j, (s.keyDown k).getKey j = if j = k then true else s.getKey j) ∧
    (s.getKey k = true → s.keyDown k = s) ∧
    (s.keyUp k = { s with keys := (s.keyUp k).keys } ∧
      ∀ j, (s.keyUp k).getKey j = if j = k then false else s.getKey j) ∧
    s.displayAck = { s with dirty := false } ∧
    (s.audioRequest = true ↔ s.st ≠ 0)

/-- Reset builds the machine of 10_state.md section 11 from the parameters and a cartridge of at most 3584 bytes, and none from a
longer one. The reset event replaces whatever the machine held, a fault, a wait, keys and pixels among it, by the machine so built,
only the draw count running on (the model's choice, log entry 8), and with a cartridge that does not fit leaves it as it was.
`State.reset` is the machine of the default parameters and the empty cartridge (the model's choice, log entry 3). The reset values
of FB, DIRTY, KEY, WAIT, S and FAULT and the size limit are the spec's decisions D14, D20, D28, D29. -/
def Obligations.ResetBuildsTheMachine : Prop :=
  (∀ (c : Config) (cart : List Byte), cart.length ≤ 3584 →
    ∃ t, State.construct c cart = some t ∧ (∀ s, (Event.reset c cart).apply s = { t with draws := s.draws }) ∧
      (∀ a : Word, a.toNat < 4096 → t.memRead a =
        if 0x200 ≤ a.toNat ∧ a.toNat < 0x200 + cart.length then cart.getD (a.toNat - 0x200) 0
        else if c.fontBase.val ≤ a.toNat ∧ a.toNat < c.fontBase.val + 80 then
          c.fontData.toList.getD (a.toNat - c.fontBase.val) 0
        else 0) ∧
      (∀ r, t.getV r = 0) ∧ t.i = 0 ∧ t.pc = 0x200 ∧ t.sp.val = 0 ∧ (∀ k : Fin 16, t.stack[k] = 0) ∧ t.dt = 0 ∧
      t.st = 0 ∧ (∀ X Y, Frame.pixel t.fb X Y = false) ∧ t.dirty = false ∧ (∀ k, t.getKey k = false) ∧ t.wait = none ∧
      t.fault = none ∧ t.cfg = c) ∧
  (∀ (c : Config) (cart : List Byte), 3584 < cart.length →
    State.construct c cart = none ∧ ∀ s, (Event.reset c cart).apply s = s) ∧
  State.construct defaultConfig [] = some State.reset

/-- A pending key wait lasts through any steps, ticks, key releases and display acknowledges, in any order: PC, the registers,
memory and the wait itself stay as they are (60_exceptions.md, sections 5 and 8). -/
def Obligations.KeyWaitLastsUntilAPress : Prop :=
  ∀ (es : List Event) (s : State) (x : Reg), s.fault = none → s.wait = some x →
    (∀ e ∈ es, e = .step ∨ e = .tick ∨ e = .displayAck ∨ ∃ k, e = .keyUp k) →
    runEvents es s = { s with dt := (runEvents es s).dt, st := (runEvents es s).st, dirty := (runEvents es s).dirty,
                              keys := (runEvents es s).keys }

/-- A recorded fault lasts through any host events but reset and restore, in any order: no instruction is executed, and every step
returns the fault (60_exceptions.md, sections 1 and 8; the latch is the spec's decision D14). A faulted machine is never waiting:
that is part of the invariant. -/
def Obligations.FaultLastsUntilReset : Prop :=
  ∀ (es : List Event) (s : State) (f : Fault), s.fault = some f → s.wait = none →
    (∀ e ∈ es, (∀ c cart, e ≠ .reset c cart) ∧ ∀ snapshot, e ≠ .restore snapshot) →
    step (runEvents es s) = .fault f ∧
    runEvents es s = { s with dt := (runEvents es s).dt, st := (runEvents es s).st, dirty := (runEvents es s).dirty,
                              keys := (runEvents es s).keys }

/-- The debug gate: a breakpoint outside memory is refused; set, it pauses a running controller before the instruction at its
address, with the machine as it was; and the first step after leaving Paused executes that instruction (60_exceptions.md, section
7; the resume is the spec's decision D34, the controller's fields the model's, log entry 9). -/
def Obligations.BreakpointPausesBeforeExecution : Prop :=
  (∀ (d : Debugger) (a : Nat), 0xFFF < a → d.setBreakpoint a = none) ∧
  (∀ (d : Debugger) (s : State), d.mode = .running → d.resuming = false →
    ∃ d', d.setBreakpoint (s.pc.toNat % 4096) = some d' ∧
      (d'.gatedStep s).1.mode = .paused ∧ (d'.gatedStep s).2 = s ∧
      ((d'.gatedStep s).1.continueRun.gatedStep s).1.mode = .running ∧
      ((d'.gatedStep s).1.continueRun.gatedStep s).2 = s.afterStep)

/-- Restore replaces whatever the machine held by the captured state, a fault and a wait among it, and the machine goes on as the
captured one would: the next step reports the same result, and the next event leaves the same state, a step that draws a random
byte excepted (70_reset_and_hazards.md, section 1). That the draw count runs on is the model's choice, log entry 8. -/
def Obligations.RestoreContinuesTheCapturedMachine : Prop :=
  ∀ s snapshot : State,
    (Event.restore snapshot).apply s = { snapshot with draws := s.draws } ∧
    ((Event.restore snapshot).apply s).stepResult = snapshot.stepResult ∧
    ∀ e : Event, (e = .step → ∀ x kk, decode snapshot.fetch ≠ .known (.rndVxKk x kk)) →
      e.apply ((Event.restore snapshot).apply s) = { e.apply snapshot with draws := s.draws }
end

