-- ==== Sys2Proof/Laws/Decode.lean ====
section
/-! SUPPORT. The bits of an encoded word (30_encoding.md R46, R47): each field is the operand put there. -/

namespace Sys2Proof

/-! ### Bits of the formats -/

theorem getLsbD_formatFA (op : BitVec 4) (nnn : Addr) (j : Nat) :
    (formatFA op nnn).getLsbD j = if j < 12 then nnn.getLsbD j else op.getLsbD (j - 12) :=
  (BitVec.getLsbD_append ..).trans (by split <;> simp [*])

theorem getLsbD_formatFXK (op : BitVec 4) (x : Reg) (kk : Byte) (j : Nat) :
    (formatFXK op x kk).getLsbD j =
      if j < 8 then kk.getLsbD j
      else if j < 12 then (BitVec.ofFin x : BitVec 4).getLsbD (j - 8) else op.getLsbD (j - 12) := by
  refine (BitVec.getLsbD_append ..).trans ?_
  by_cases h : j < 8
  · simp [h]
  · refine (if_neg (by simpa using h)).trans ((BitVec.getLsbD_append ..).trans ?_)
    by_cases h' : j < 12
    · have : j - 8 < 4 := by omega
      simp [h, h', this]
    · have : ¬ j - 8 < 4 := by omega
      simp [h, h', this, Nat.sub_sub]

theorem getLsbD_formatFXYN (op : BitVec 4) (x y : Reg) (n : BitVec 4) (j : Nat) :
    (formatFXYN op x y n).getLsbD j =
      if j < 4 then n.getLsbD j
      else if j < 8 then (BitVec.ofFin y : BitVec 4).getLsbD (j - 4)
      else if j < 12 then (BitVec.ofFin x : BitVec 4).getLsbD (j - 8) else op.getLsbD (j - 12) := by
  refine (BitVec.getLsbD_append ..).trans ?_
  by_cases h : j < 4
  · simp [h]
  · refine (if_neg (by simpa using h)).trans ((BitVec.getLsbD_append ..).trans ?_)
    by_cases h' : j < 8
    · have : j - 4 < 4 := by omega
      simp [h, h', this]
    · have h4 : ¬ j - 4 < 4 := by omega
      refine (if_neg (by simpa using h4)).trans ((BitVec.getLsbD_append ..).trans ?_)
      by_cases h'' : j < 12
      · have : j - 8 < 4 := by omega
        simp [h, h', h'', this, Nat.sub_sub]
      · have : ¬ j - 8 < 4 := by omega
        simp [h, h', h'', this, Nat.sub_sub]

/-! ### Fields of the formats -/

@[simp] theorem opField_formatFA (op : BitVec 4) (nnn : Addr) : opField (formatFA op nnn) = op := by
  apply BitVec.eq_of_getLsbD_eq; intro j hj
  simp [opField, getLsbD_formatFA, hj]

@[simp] theorem nnnField_formatFA (op : BitVec 4) (nnn : Addr) : nnnField (formatFA op nnn) = nnn := by
  apply BitVec.eq_of_getLsbD_eq; intro j hj
  simp [nnnField, getLsbD_formatFA, hj]

@[simp] theorem opField_formatFXK (op : BitVec 4) (x : Reg) (kk : Byte) : opField (formatFXK op x kk) = op := by
  apply BitVec.eq_of_getLsbD_eq; intro j hj
  have h : ¬ 12 + j < 8 := by omega
  simp [opField, getLsbD_formatFXK, hj, h]

@[simp] theorem xReg_formatFXK (op : BitVec 4) (x : Reg) (kk : Byte) : xReg (formatFXK op x kk) = x := by
  have : xField (formatFXK op x kk) = BitVec.ofFin x := by
    apply BitVec.eq_of_getLsbD_eq; intro j hj
    have h : 8 + j < 12 := by omega
    simp only [xField, BitVec.getLsbD_extractLsb', getLsbD_formatFXK]
    simp [hj, h]
  simp [xReg, this]

@[simp] theorem kkField_formatFXK (op : BitVec 4) (x : Reg) (kk : Byte) : kkField (formatFXK op x kk) = kk := by
  apply BitVec.eq_of_getLsbD_eq; intro j hj
  simp [kkField, getLsbD_formatFXK, hj]

@[simp] theorem opField_formatFXYN (op : BitVec 4) (x y : Reg) (n : BitVec 4) : opField (formatFXYN op x y n) = op := by
  apply BitVec.eq_of_getLsbD_eq; intro j hj
  have h : ¬ 12 + j < 4 := by omega
  have h' : ¬ 12 + j < 8 := by omega
  simp [opField, getLsbD_formatFXYN, hj, h, h']

@[simp] theorem xReg_formatFXYN (op : BitVec 4) (x y : Reg) (n : BitVec 4) : xReg (formatFXYN op x y n) = x := by
  have : xField (formatFXYN op x y n) = BitVec.ofFin x := by
    apply BitVec.eq_of_getLsbD_eq; intro j hj
    have h : ¬ 8 + j < 4 := by omega
    have h' : 8 + j < 12 := by omega
    simp only [xField, BitVec.getLsbD_extractLsb', getLsbD_formatFXYN]
    simp [hj, h, h']
  simp [xReg, this]

@[simp] theorem yReg_formatFXYN (op : BitVec 4) (x y : Reg) (n : BitVec 4) : yReg (formatFXYN op x y n) = y := by
  have : yField (formatFXYN op x y n) = BitVec.ofFin y := by
    apply BitVec.eq_of_getLsbD_eq; intro j hj
    have h' : 4 + j < 8 := by omega
    simp only [yField, BitVec.getLsbD_extractLsb', getLsbD_formatFXYN]
    simp [hj, h']
  simp [yReg, this]

@[simp] theorem nField_formatFXYN (op : BitVec 4) (x y : Reg) (n : BitVec 4) : nField (formatFXYN op x y n) = n := by
  apply BitVec.eq_of_getLsbD_eq; intro j hj
  simp [nField, getLsbD_formatFXYN, hj]

@[simp] theorem nRows_formatFXYN (op : BitVec 4) (x y : Reg) (n : Fin 16) :
    nRows (formatFXYN op x y (BitVec.ofFin n)) = n := by
  simp [nRows]

/-! ### A word is the format of its fields -/

theorem eq_formatFA (w : Word) : w = formatFA (opField w) (nnnField w) := by
  apply BitVec.eq_of_getLsbD_eq; intro j hj
  rw [getLsbD_formatFA]
  interval_cases j <;> simp [opField, nnnField]

theorem eq_formatFXK (w : Word) : w = formatFXK (opField w) (xReg w) (kkField w) := by
  have hx : (BitVec.ofFin (xReg w) : BitVec 4) = xField w := rfl
  apply BitVec.eq_of_getLsbD_eq; intro j hj
  rw [getLsbD_formatFXK, hx]
  interval_cases j <;> simp [opField, xField, kkField]

theorem eq_formatFXYN (w : Word) : w = formatFXYN (opField w) (xReg w) (yReg w) (nField w) := by
  have hx : (BitVec.ofFin (xReg w) : BitVec 4) = xField w := rfl
  have hy : (BitVec.ofFin (yReg w) : BitVec 4) = yField w := rfl
  apply BitVec.eq_of_getLsbD_eq; intro j hj
  rw [getLsbD_formatFXYN, hx, hy]
  interval_cases j <;> simp [opField, xField, yField, nField]

/-! ### The fields as numbers -/

theorem toNat_opField (w : Word) : (opField w).toNat = w.toNat / 4096 := by
  simp [opField, BitVec.extractLsb'_toNat, Nat.shiftRight_eq_div_pow]; omega

theorem toNat_nField (w : Word) : (nField w).toNat = w.toNat % 16 := by
  simp [nField, BitVec.extractLsb'_toNat]

theorem toNat_kkField (w : Word) : (kkField w).toNat = w.toNat % 256 := by
  simp [kkField, BitVec.extractLsb'_toNat]

/-! ### The two bytes of a word -/

@[simp] theorem wordOfBytes_hi_lo (w : Word) : wordOfBytes (hiByte w) (loByte w) = w := by
  apply BitVec.eq_of_getLsbD_eq; intro j hj
  refine (BitVec.getLsbD_append ..).trans ?_
  by_cases h : j < 8
  · simp [h, loByte]
  · have h1 : j - 8 < 8 := by omega
    have h2 : 8 + (j - 8) = j := by omega
    simp [h, h1, h2, hiByte]

end Sys2Proof
end

