-- ==== Sys2Proof/Laws/Memory.lean ====
section
/-! SUPPORT. The laws of the byte memory: a read after a write, and the canonical form under every memory operation. They
hold for every list, canonical or not. -/

namespace Sys2Proof.Machine

/-! ### Addresses -/

/-- `mask12(a)` is `a` modulo 4096. -/
theorem mask12_eq (a : Word) : mask12 a = a.toNat % 4096 := by
  have h := Nat.and_two_pow_sub_one_eq_mod a.toNat 12
  simpa [mask12] using h

theorem mask12_lt (a : Word) : mask12 a < memSize := by
  rw [mask12_eq]; exact Nat.mod_lt _ (by decide)

/-- The masked address of byte `k` of an access. -/
theorem mask12_effAddr (s : State) (k : Nat) : mask12 (s.effAddr k) = (s.i.toNat + k) % 4096 := by
  rw [mask12_eq]; simp only [State.effAddr, BitVec.toNat_add, BitVec.toNat_ofNat]; omega

/-- Two bytes of one access less than 4096 apart lie at different addresses. -/
theorem mask12_effAddr_inj (s : State) {j k : Nat} (hj : j < 4096) (hk : k < 4096)
    (h : mask12 (s.effAddr j) = mask12 (s.effAddr k)) : j = k := by
  simp only [mask12_effAddr] at h; omega

/-! ### Reading back -/

theorem Memory.read_erase (c : Config) (m : Memory) (a b : Nat) :
    Memory.read c (m.erase a) b = if a = b then initialByte c b else Memory.read c m b := by
  induction m with
  | nil => simp [Memory.erase, Memory.read]
  | cons e rest ih =>
    obtain ⟨d, u⟩ := e
    simp only [Memory.erase] at ih
    by_cases hd : d = a
    · subst hd
      have hrest : Memory.erase ((d, u) :: rest) d = List.filter (fun e => e.1 != d) rest := by simp [Memory.erase]
      rw [hrest, ih]
      by_cases hb : d = b <;> simp [Memory.read, hb]
    · by_cases hb : d = b
      · subst hb; simp [Memory.erase, Memory.read, hd, Ne.symm hd]
      · simp [Memory.erase, Memory.read, hd, ih, hb]

theorem Memory.read_insert (c : Config) (m : Memory) (a : Nat) (x : Byte) (b : Nat) :
    Memory.read c (m.insert a x) b = if a = b then x else Memory.read c m b := by
  induction m with
  | nil => simp [Memory.insert, Memory.read]
  | cons e rest ih =>
    obtain ⟨d, u⟩ := e
    unfold Memory.insert
    split
    · simp [Memory.read]
    · split
      · next h => subst h; by_cases hb : d = b <;> simp [Memory.read, hb]
      · next h =>
        by_cases hb : d = b
        · subst hb; simp [Memory.read, Ne.symm h]
        · simp [Memory.read, hb, ih]

/-- A byte reads back what was last written to it, and every other byte what it held. -/
theorem Memory.read_write (c : Config) (m : Memory) (a : Nat) (x : Byte) (b : Nat) :
    Memory.read c (m.write c a x) b = if a = b then x else Memory.read c m b := by
  unfold Memory.write
  split
  · next h =>
    rw [Memory.read_erase]
    by_cases hb : a = b
    · subst hb; simp [h]
    · simp [hb]
  · exact Memory.read_insert c m a x b

/-- The same of the state's bytes: addresses are compared after masking. -/
theorem State.memRead_memWrite (s : State) (a : Word) (x : Byte) (b : Word) :
    (s.memWrite a x).memRead b = if mask12 a = mask12 b then x else s.memRead b :=
  Memory.read_write s.cfg s.mem (mask12 a) x (mask12 b)

@[simp] theorem State.effAddr_memWrite (s : State) (a : Word) (x : Byte) (k : Nat) :
    (s.memWrite a x).effAddr k = s.effAddr k := rfl

/-! ### The canonical form -/

theorem Memory.wf_nil (c : Config) : Memory.wf c [] := by simp [Memory.wf]

theorem Memory.wf_erase {c : Config} {m : Memory} (h : Memory.wf c m) (a : Nat) : Memory.wf c (m.erase a) :=
  ⟨h.1.filter _, fun e he => h.2 e (List.mem_of_mem_filter he)⟩

theorem Memory.mem_insert {m : Memory} {a : Nat} {x : Byte} {e : Host.Cell} (h : e ∈ m.insert a x) :
    e = (a, x) ∨ e ∈ m := by
  induction m with
  | nil => simpa [Memory.insert] using h
  | cons d rest ih =>
    obtain ⟨b, u⟩ := d
    unfold Memory.insert at h
    split at h
    · simpa using h
    · split at h
      · rcases List.mem_cons.1 h with h | h
        · exact .inl h
        · exact .inr (List.mem_cons_of_mem _ h)
      · rcases List.mem_cons.1 h with h | h
        · exact .inr (by simp [h])
        · exact (ih h).imp_right (List.mem_cons_of_mem _)

theorem Memory.pairwise_insert {m : Memory} (h : m.Pairwise (fun p q => p.1 < q.1)) (a : Nat) (x : Byte) :
    (m.insert a x).Pairwise (fun p q => p.1 < q.1) := by
  induction m with
  | nil => simp [Memory.insert]
  | cons d rest ih =>
    obtain ⟨b, u⟩ := d
    obtain ⟨h1, h2⟩ := List.pairwise_cons.1 h
    unfold Memory.insert
    split
    · next hab =>
      refine List.pairwise_cons.2 ⟨fun e he => ?_, h⟩
      rcases List.mem_cons.1 he with rfl | he
      · exact hab
      · exact Nat.lt_trans hab (h1 e he)
    · split
      · next hba => subst hba; exact List.pairwise_cons.2 ⟨h1, h2⟩
      · refine List.pairwise_cons.2 ⟨fun e he => ?_, ih h2⟩
        rcases Memory.mem_insert he with rfl | he
        · show b < a; omega
        · exact h1 e he

theorem Memory.wf_insert {c : Config} {m : Memory} (h : Memory.wf c m) {a : Nat} (ha : a < memSize) {x : Byte}
    (hx : x ≠ initialByte c a) : Memory.wf c (m.insert a x) := by
  refine ⟨Memory.pairwise_insert h.1 a x, fun e he => ?_⟩
  rcases Memory.mem_insert he with rfl | he
  · exact ⟨ha, hx⟩
  · exact h.2 e he

/-- Writing a byte inside the address space keeps the canonical form. -/
theorem Memory.wf_write {c : Config} {m : Memory} (h : Memory.wf c m) {a : Nat} (ha : a < memSize) (x : Byte) :
    Memory.wf c (m.write c a x) := by
  unfold Memory.write
  split
  · exact Memory.wf_erase h a
  · next hx => exact Memory.wf_insert h ha hx

/-- `MemWrite` keeps the canonical form: its address is masked. -/
theorem State.memWrite_wf (s : State) (h : Memory.wf s.cfg s.mem) (a : Word) (x : Byte) :
    Memory.wf (s.memWrite a x).cfg (s.memWrite a x).mem :=
  Memory.wf_write h (mask12_lt a) x

/-- The reset state's memory, and that of any machine built without a cartridge, is canonical. -/
theorem State.ofConfig_wf (c : Config) : Memory.wf (State.ofConfig c).cfg (State.ofConfig c).mem := Memory.wf_nil c

end Sys2Proof.Machine
end

