-- ==== Sys2Proof/Laws/Ops.lean ====
section
/-! SUPPORT. One lemma for each shared operation that says once what it does: the result and flag writes, the call stack, the
block moves and the sprite draw. Provers cite these instead of unfolding the operations. -/

namespace Sys2Proof.Machine

/-! ### Result and flag -/

/-- `writeResultAndFlag` leaves the result and the flag as `QFLAG` says, every other register, and every other field. -/
theorem State.writeResultAndFlag_spec (s : State) (x : Reg) (res f : Byte) :
    ResultAndFlag s (s.writeResultAndFlag x res f) x res f ∧
    (∀ r, r ≠ x → r ≠ vf → (s.writeResultAndFlag x res f).getV r = s.getV r) ∧
    s.writeResultAndFlag x res f = { s with v := (s.writeResultAndFlag x res f).v } := by
  unfold State.writeResultAndFlag ResultAndFlag
  cases s.cfg.qflag <;> refine ⟨?_, ?_, rfl⟩
  · by_cases h : x = vf <;> simp [State.getV_setV, h, eq_comm]
  · intro r h1 h2; simp [State.getV_setV, Ne.symm h1, Ne.symm h2]
  · by_cases h : x = vf
    · simp [h]
    · simp [State.getV_setV, h]
  · intro r h1 h2; simp [State.getV_setV, Ne.symm h1, Ne.symm h2]

/-- `writeLogic`, by `QLOGIC`: the result alone, or the result and the flag 0. -/
theorem State.writeLogic_spec (s : State) (x : Reg) (res : Byte) :
    (s.cfg.qlogic = .preserve → s.writeLogic x res = s.setV x res) ∧
    (s.cfg.qlogic = .reset → s.writeLogic x res = s.writeResultAndFlag x res 0) := by
  unfold State.writeLogic
  constructor <;> intro h <;> rw [h]

/-- `writeIndexFlag`, by `QADDI`: nothing, or VF. -/
theorem State.writeIndexFlag_spec (s : State) (f : Byte) :
    (s.cfg.qaddi = .unaffected → s.writeIndexFlag f = s) ∧
    (s.cfg.qaddi = .overflow → s.writeIndexFlag f = s.setV vf f) := by
  unfold State.writeIndexFlag
  constructor <;> intro h <;> rw [h]

/-! ### The call stack -/

/-- `push` fails exactly on a full stack; otherwise it writes the entry at the old depth and nothing else but the depth. -/
theorem State.push_cases (s : State) (ret : Word) :
    (s.sp.val = 16 ∧ s.push ret = none) ∨
    ∃ h : s.sp.val < 16, s.push ret =
      some { s with stack := s.stack.set s.sp.val ret, sp := ⟨s.sp.val + 1, by omega⟩ } := by
  unfold State.push
  split
  · next h => exact .inr ⟨h, rfl⟩
  · next h => exact .inl ⟨by omega, rfl⟩

/-- `pop` fails exactly on an empty stack; otherwise it answers the top entry and lowers the depth, and nothing else. -/
theorem State.pop_cases (s : State) :
    (s.sp.val = 0 ∧ s.pop = none) ∨
    ∃ _h : s.sp.val ≠ 0, s.pop = some (s.stack[s.sp.val - 1], { s with sp := ⟨s.sp.val - 1, by omega⟩ }) := by
  unfold State.pop
  split
  · next h => exact .inl ⟨h, rfl⟩
  · next h => exact .inr ⟨h, rfl⟩

/-! ### The register range of Fx55 and Fx65 -/

theorem mem_regsUpTo (x k : Reg) : k ∈ regsUpTo x ↔ k.val ≤ x.val := by
  revert x k; decide

theorem nodup_regsUpTo (x : Reg) : (regsUpTo x).Nodup := by
  revert x; decide

/-! ### Block moves -/

/-- A step of the store loop from any state `t`, the sources read from `s`. -/
theorem foldl_memWrite_read (s : State) (rs : List Reg) (t : State) (a : Word)
    (h : ∀ k ∈ rs, mask12 (s.effAddr k.val) ≠ mask12 a) :
    (rs.foldl (fun t k => t.memWrite (s.effAddr k.val) (s.getV k)) t).memRead a = t.memRead a := by
  induction rs generalizing t with
  | nil => rfl
  | cons k rest ih =>
    rw [List.foldl_cons, ih _ (fun j hj => h j (List.mem_cons_of_mem _ hj)), State.memRead_memWrite,
      if_neg (h k List.mem_cons_self)]

theorem foldl_memWrite_fields (s : State) (rs : List Reg) (t : State) :
    rs.foldl (fun t k => t.memWrite (s.effAddr k.val) (s.getV k)) t =
      { t with mem := (rs.foldl (fun t k => t.memWrite (s.effAddr k.val) (s.getV k)) t).mem } := by
  induction rs generalizing t with
  | nil => rfl
  | cons k rest ih => rw [List.foldl_cons, ih]; rfl

/-- `storeRegs` changes memory alone. -/
theorem State.storeRegs_fields (s : State) (rs : List Reg) :
    s.storeRegs rs = { s with mem := (s.storeRegs rs).mem } := foldl_memWrite_fields s rs s

/-- Every byte outside the block is as before. -/
theorem State.storeRegs_read_other (s : State) (rs : List Reg) (a : Word)
    (h : ∀ k ∈ rs, mask12 (s.effAddr k.val) ≠ mask12 a) : (s.storeRegs rs).memRead a = s.memRead a :=
  foldl_memWrite_read s rs s a h

theorem foldl_memWrite_read_at (s : State) (rs : List Reg) (hn : rs.Nodup) (t : State) (k : Reg) (hk : k ∈ rs) :
    (rs.foldl (fun t k => t.memWrite (s.effAddr k.val) (s.getV k)) t).memRead (s.effAddr k.val) = s.getV k := by
  induction rs generalizing t with
  | nil => cases hk
  | cons j rest ih =>
    obtain ⟨hj, hn⟩ := List.nodup_cons.1 hn
    rw [List.foldl_cons]
    rcases List.mem_cons.1 hk with rfl | hk
    · rw [foldl_memWrite_read, State.memRead_memWrite, if_pos rfl]
      intro i hi e
      have := mask12_effAddr_inj s (by omega) (by omega) e
      exact hj (Fin.ext this ▸ hi)
    · exact ih hn _ hk

/-- Every byte of the block holds its register. -/
theorem State.storeRegs_read (s : State) (rs : List Reg) (hn : rs.Nodup) (k : Reg) (hk : k ∈ rs) :
    (s.storeRegs rs).memRead (s.effAddr k.val) = s.getV k :=
  foldl_memWrite_read_at s rs hn s k hk

/-- `storeRegs` keeps the canonical form of memory. -/
theorem State.storeRegs_wf (s : State) (h : Memory.wf s.cfg s.mem) (rs : List Reg) :
    Memory.wf (s.storeRegs rs).cfg (s.storeRegs rs).mem := by
  have key : ∀ t : State, Memory.wf t.cfg t.mem →
      Memory.wf (rs.foldl (fun t k => t.memWrite (s.effAddr k.val) (s.getV k)) t).cfg
        (rs.foldl (fun t k => t.memWrite (s.effAddr k.val) (s.getV k)) t).mem := by
    induction rs with
    | nil => exact fun t ht => ht
    | cons k rest ih => exact fun t ht => ih _ (State.memWrite_wf t ht _ _)
  exact key s h

theorem foldl_setV_fields (s : State) (rs : List Reg) (t : State) :
    rs.foldl (fun t k => t.setV k (s.memRead (s.effAddr k.val))) t =
      { t with v := (rs.foldl (fun t k => t.setV k (s.memRead (s.effAddr k.val))) t).v } := by
  induction rs generalizing t with
  | nil => rfl
  | cons k rest ih => rw [List.foldl_cons, ih]; rfl

/-- `loadRegs` changes general registers alone. -/
theorem State.loadRegs_fields (s : State) (rs : List Reg) : s.loadRegs rs = { s with v := (s.loadRegs rs).v } :=
  foldl_setV_fields s rs s

/-- `loadRegs` gives each listed register its byte, and leaves every other one. -/
theorem State.loadRegs_getV (s : State) (rs : List Reg) (r : Reg) :
    (s.loadRegs rs).getV r = if r ∈ rs then s.memRead (s.effAddr r.val) else s.getV r := by
  have key : ∀ t : State, (rs.foldl (fun t k => t.setV k (s.memRead (s.effAddr k.val))) t).getV r =
      if r ∈ rs then s.memRead (s.effAddr r.val) else t.getV r := by
    induction rs with
    | nil => intro t; rfl
    | cons k rest ih =>
      intro t
      rw [List.foldl_cons, ih]
      by_cases hr : r ∈ rest
      · simp [hr]
      · by_cases hk : k = r
        · subst hk; simp [hr]
        · simp [hr, Ne.symm hk, State.getV_setV, hk]
  exact key s

/-! ### The framebuffer -/

theorem Frame.pixel_flip (f : Frame) (x : Fin 64) (y : Fin 32) (X : Fin 64) (Y : Fin 32) :
    Frame.pixel (Frame.flip f x y) X Y = (Frame.pixel f X Y ^^ decide ((x, y) = (X, Y))) := by
  simp only [Frame.pixel, Frame.flip, Fin.getElem_fin, Vector.getElem_set, Prod.mk.injEq]
  by_cases hy : y = Y
  · subst hy
    have hX : X.val < 64 := X.isLt
    simp [hX, Fin.ext_iff, eq_comm]
  · simp [hy, Fin.val_inj]

@[simp] theorem Frame.pixel_blank (X : Fin 64) (Y : Fin 32) : Frame.pixel Frame.blank X Y = false := by
  simp [Frame.pixel, Frame.blank]

/-- Two framebuffers with the same pixels are the same framebuffer. -/
theorem Frame.ext_pixel {f g : Frame} (h : ∀ X Y, Frame.pixel f X Y = Frame.pixel g X Y) : f = g := by
  apply Vector.ext
  intro y hy
  apply BitVec.eq_of_getLsbD_eq
  intro x hx
  exact h ⟨x, hx⟩ ⟨y, hy⟩

theorem foldl_drawPixel (ps : List (Fin 64 × Fin 32)) (hn : ps.Nodup) (acc : Frame × Bool) :
    (∀ X Y, Frame.pixel (ps.foldl drawPixel acc).1 X Y = (Frame.pixel acc.1 X Y ^^ decide ((X, Y) ∈ ps))) ∧
    ((ps.foldl drawPixel acc).2 = (acc.2 || ps.any fun p => Frame.pixel acc.1 p.1 p.2)) := by
  induction ps generalizing acc with
  | nil => simp
  | cons p rest ih =>
    obtain ⟨hp, hn⟩ := List.nodup_cons.1 hn
    obtain ⟨h1, h2⟩ := ih hn (drawPixel acc p)
    constructor
    · intro X Y
      rw [List.foldl_cons, h1]
      simp only [drawPixel, Frame.pixel_flip, List.mem_cons]
      by_cases e : p = (X, Y)
      · subst e; simp [hp]
      · simp [e, Ne.symm e]
    · rw [List.foldl_cons, h2]
      have : (rest.any fun q => Frame.pixel (drawPixel acc p).1 q.1 q.2) = rest.any fun q => Frame.pixel acc.1 q.1 q.2 := by
        apply Bool.eq_iff_iff.2
        simp only [List.any_eq_true]
        refine exists_congr fun q => and_congr_right fun hq => ?_
        have e : p ≠ q := fun e => hp (e ▸ hq)
        simp [drawPixel, Frame.pixel_flip, e]
      rw [this]
      simp [drawPixel, Bool.or_assoc]

/-- Drawing pixels with no repeats flips exactly those, and collides when one of them was set. -/
theorem drawPixels_spec (f : Frame) (ps : List (Fin 64 × Fin 32)) (hn : ps.Nodup) :
    (∀ X Y, Frame.pixel (drawPixels f ps).1 X Y = (Frame.pixel f X Y ^^ decide ((X, Y) ∈ ps))) ∧
    ((drawPixels f ps).2 = ps.any fun p => Frame.pixel f p.1 p.2) := by
  simpa [drawPixels] using foldl_drawPixel ps hn (f, false)

/-- The lit pixels of a sprite row. -/
theorem mem_rowPixels (px py r : Nat) (b : Byte) (X : Fin 64) (Y : Fin 32) :
    (X, Y) ∈ rowPixels px py r b ↔
      ∃ c < 8, b.getLsbD (7 - c) = true ∧ X.val = (px + c) % 64 ∧ Y.val = (py + r) % 32 := by
  simp only [rowPixels, spriteBit, List.mem_map, List.mem_filter, List.mem_range, Prod.mk.injEq, Fin.ext_iff,
    Fin.val_ofNat, and_assoc]
  exact exists_congr fun c => by constructor <;> rintro ⟨h1, h2, h3, h4⟩ <;> exact ⟨h1, h2, h3.symm, h4.symm⟩

/-- The lit pixels of the sprite are those `SpriteLit` says. -/
theorem State.mem_spritePixels (s : State) (px py n : Nat) (X : Fin 64) (Y : Fin 32) :
    (X, Y) ∈ s.spritePixels px py n ↔ SpriteLit s px py n X Y := by
  simp only [State.spritePixels, List.mem_flatMap, List.mem_range, mem_rowPixels, SpriteLit]
  constructor
  · rintro ⟨r, hr, c, hc, h⟩; exact ⟨r, c, hr, hc, h⟩
  · rintro ⟨r, c, hr, hc, h⟩; exact ⟨r, hr, c, hc, h⟩

/-- A sprite covers no pixel twice: it is 8 columns wide on 64 and at most 32 rows high on 32 (45_display.md R96 (c)). -/
theorem State.nodup_spritePixels (s : State) (px py n : Nat) (hn : n ≤ 32) : (s.spritePixels px py n).Nodup := by
  unfold State.spritePixels
  rw [List.nodup_flatMap]
  constructor
  · intro r _
    unfold rowPixels
    refine List.Nodup.map_on ?_ (List.nodup_range.filter _)
    intro c hc d hd e
    have hc := List.mem_range.1 (List.mem_of_mem_filter hc)
    have hd := List.mem_range.1 (List.mem_of_mem_filter hd)
    have := congrArg (fun p => p.1.val) e
    simp only [Fin.val_ofNat] at this
    omega
  · refine List.Pairwise.imp_of_mem ?_ List.nodup_range
    intro r q hr hq hne
    have hr := List.mem_range.1 hr
    have hq := List.mem_range.1 hq
    rw [Function.onFun, List.disjoint_left]
    rintro ⟨X, Y⟩ h1 h2
    obtain ⟨_, _, _, _, h1⟩ := (mem_rowPixels _ _ _ _ _ _).1 h1
    obtain ⟨_, _, _, _, h2⟩ := (mem_rowPixels _ _ _ _ _ _).1 h2
    exact hne (by omega)

end Sys2Proof.Machine
end

