-- ==== Sys2Proof/Laws/Exec.lean ====
section
/-! SUPPORT. What a step can do, said once: the inversion of `step` and of `exec`. -/

namespace Sys2Proof.Machine

/-- The first gate. -/
theorem step_of_fault {s : State} {f : Fault} (hf : s.fault = some f) : step s = .fault f := by
  simp only [step, cycle, hf]

/-- The second gate. -/
theorem step_of_wait {s : State} {x : Reg} (hf : s.fault = none) (hw : s.wait = some x) : step s = .next s := by
  simp only [step, cycle, hf, hw]

/-- With both gates open, a step executes what the fetched word decodes to. -/
theorem step_of_run {s : State} (hf : s.fault = none) (hw : s.wait = none) : step s = execOperation (decode s.fetch) s := by
  simp only [step, cycle, hf, hw]

/-- A step that answers a next state: the key wait's no-op, an unknown word, or a decoded instruction. -/
theorem step_cases {s t : State} (h : step s = .next t) :
    s.fault = none ∧
    ((∃ x, s.wait = some x ∧ t = s) ∨
     (s.wait = none ∧ ∃ w, decode s.fetch = .unknown w ∧ t = s.raise .unknownOpcode) ∨
     (s.wait = none ∧ ∃ i, decode s.fetch = .known i ∧ exec i s = .next t)) := by
  unfold step cycle at h
  split at h
  · cases h
  · next hf =>
    refine ⟨hf, ?_⟩
    split at h
    · next x hx => cases h; exact .inl ⟨x, hx, rfl⟩
    · next hw =>
      unfold execOperation at h
      split at h
      · next i hi => exact .inr (.inr ⟨hw, i, hi, h⟩)
      · next w hu => cases h; exact .inr (.inl ⟨hw, w, hu, rfl⟩)

/-- CALL: the push and the jump, or the fault. -/
theorem execCall_cases (nnn : Addr) (s : State) :
    (s.sp.val = 16 ∧ execCall nnn s = .next (s.raise .stackOverflow)) ∨
    ∃ _h : s.sp.val < 16, execCall nnn s = .next
      { s with stack := s.stack.set s.sp.val (s.pc + 2), sp := ⟨s.sp.val + 1, by omega⟩, pc := nnn.setWidth 16 } := by
  unfold execCall
  rcases s.push_cases (s.pc + 2) with ⟨h, e⟩ | ⟨h, e⟩
  · exact .inl ⟨h, by rw [e]⟩
  · exact .inr ⟨h, by rw [e]; rfl⟩

/-- RET: the pop, or the fault. -/
theorem execRet_cases (s : State) :
    (s.sp.val = 0 ∧ execRet s = .next (s.raise .stackUnderflow)) ∨
    ∃ _h : s.sp.val ≠ 0, execRet s = .next
      { s with sp := ⟨s.sp.val - 1, by omega⟩, pc := s.stack[s.sp.val - 1] } := by
  unfold execRet
  rcases s.pop_cases with ⟨h, e⟩ | ⟨h, e⟩
  · exact .inl ⟨h, by rw [e]⟩
  · exact .inr ⟨h, by rw [e]; rfl⟩

/-- SYS: the advance, or the fault. -/
theorem execSys_cases (nnn : Addr) (s : State) :
    (s.cfg.qsys = .nop ∧ execSys nnn s = .next s.advance) ∨
    (s.cfg.qsys = .fault ∧ execSys nnn s = .next (s.raise .unknownOpcode)) := by
  unfold execSys
  cases h : s.cfg.qsys
  · exact .inl ⟨rfl, rfl⟩
  · exact .inr ⟨rfl, rfl⟩

/-- The result and flag writes touch registers alone. -/
theorem State.writeResultAndFlag_fields (s : State) (x : Reg) (res f : Byte) :
    s.writeResultAndFlag x res f = { s with v := (s.writeResultAndFlag x res f).v } :=
  (s.writeResultAndFlag_spec x res f).2.2

theorem State.writeLogic_fields (s : State) (x : Reg) (res : Byte) :
    s.writeLogic x res = { s with v := (s.writeLogic x res).v } := by
  cases h : s.cfg.qlogic
  · rw [(s.writeLogic_spec x res).1 h]; rfl
  · rw [(s.writeLogic_spec x res).2 h]; exact s.writeResultAndFlag_fields x res 0

theorem State.writeIndexFlag_fields (s : State) (f : Byte) :
    s.writeIndexFlag f = { s with v := (s.writeIndexFlag f).v } := by
  cases h : s.cfg.qaddi
  · rw [(s.writeIndexFlag_spec f).1 h]
  · rw [(s.writeIndexFlag_spec f).2 h]; rfl

/-- Every instruction completes in every state. -/
theorem exec_next (i : Instr) (s : State) : ∃ t, exec i s = .next t := by
  cases i with
  | sys n => rcases execSys_cases n s with ⟨_, e⟩ | ⟨_, e⟩ <;> exact ⟨_, e⟩
  | call n => rcases execCall_cases n s with ⟨_, e⟩ | ⟨_, e⟩ <;> exact ⟨_, e⟩
  | ret => rcases execRet_cases s with ⟨_, e⟩ | ⟨_, e⟩ <;> exact ⟨_, e⟩
  | _ => exact ⟨_, rfl⟩

/-- `storeRegs` does not look at the draw count, and leaves it. -/
theorem State.storeRegs_draws (s : State) (d : Nat) (rs : List Reg) :
    ({ s with draws := d } : State).storeRegs rs = { s.storeRegs rs with draws := d } := by
  have key : ∀ t : State, rs.foldl (fun t k => t.memWrite (s.effAddr k.val) (s.getV k)) { t with draws := d } =
      { rs.foldl (fun t k => t.memWrite (s.effAddr k.val) (s.getV k)) t with draws := d } := by
    induction rs with
    | nil => intro t; rfl
    | cons k rest ih => intro t; exact ih (t.memWrite (s.effAddr k.val) (s.getV k))
  exact key s

/-- `loadRegs` does not look at the draw count, and leaves it. -/
theorem State.loadRegs_draws (s : State) (d : Nat) (rs : List Reg) :
    ({ s with draws := d } : State).loadRegs rs = { s.loadRegs rs with draws := d } := by
  have key : ∀ t : State, rs.foldl (fun t k => t.setV k (s.memRead (s.effAddr k.val))) { t with draws := d } =
      { rs.foldl (fun t k => t.setV k (s.memRead (s.effAddr k.val))) t with draws := d } := by
    induction rs with
    | nil => intro t; rfl
    | cons k rest ih => intro t; exact ih (t.setV k (s.memRead (s.effAddr k.val)))
  exact key s

/-- An instruction that draws no random byte does not look at the draw count, and leaves it. -/
theorem exec_draws {i : Instr} (hi : ∀ x kk, i ≠ .rndVxKk x kk) (d : Nat) {s t : State} (h : exec i s = .next t) :
    exec i { s with draws := d } = .next { t with draws := d } := by
  cases i with
  | rndVxKk x kk => exact absurd rfl (hi x kk)
  | sys nnn =>
    rcases execSys_cases nnn s with ⟨hq, e⟩ | ⟨hq, e⟩ <;> cases e.symm.trans h <;> simp only [exec, execSys, hq] <;> rfl
  | call nnn =>
    rcases execCall_cases nnn s with ⟨hq, e⟩ | ⟨hq, e⟩ <;> cases e.symm.trans h
    · simp [exec, execCall, State.push, hq]; rfl
    · simp [exec, execCall, State.push, hq]; rfl
  | ret =>
    rcases execRet_cases s with ⟨hq, e⟩ | ⟨hq, e⟩ <;> cases e.symm.trans h
    · simp [exec, execRet, State.pop, hq]; rfl
    · simp [exec, execRet, State.pop, hq]; rfl
  | ldMemIVx x => cases h; simp only [exec, execLdMemIVx, State.storeRegs_draws]; rfl
  | ldVxMemI x => cases h; simp only [exec, execLdVxMemI, State.loadRegs_draws]; rfl
  | addIVx x => cases h; cases hq : s.cfg.qaddi <;> simp [exec, execAddIVx, State.writeIndexFlag, hq] <;> rfl
  | orVxVy x y => cases h; cases hq : s.cfg.qlogic <;> cases hf : s.cfg.qflag <;>
      simp [exec, execOrVxVy, State.writeLogic, State.writeResultAndFlag, hq, hf] <;> rfl
  | andVxVy x y => cases h; cases hq : s.cfg.qlogic <;> cases hf : s.cfg.qflag <;>
      simp [exec, execAndVxVy, State.writeLogic, State.writeResultAndFlag, hq, hf] <;> rfl
  | xorVxVy x y => cases h; cases hq : s.cfg.qlogic <;> cases hf : s.cfg.qflag <;>
      simp [exec, execXorVxVy, State.writeLogic, State.writeResultAndFlag, hq, hf] <;> rfl
  | addVxVy x y => cases h; cases hf : s.cfg.qflag <;> simp [exec, execAddVxVy, State.writeResultAndFlag, hf] <;> rfl
  | subVxVy x y => cases h; cases hf : s.cfg.qflag <;> simp [exec, execSubVxVy, State.writeResultAndFlag, hf] <;> rfl
  | subnVxVy x y => cases h; cases hf : s.cfg.qflag <;> simp [exec, execSubnVxVy, State.writeResultAndFlag, hf] <;> rfl
  | shrVxVy x y => cases h; cases hf : s.cfg.qflag <;> simp [exec, execShrVxVy, State.writeResultAndFlag, hf] <;> rfl
  | shlVxVy x y => cases h; cases hf : s.cfg.qflag <;> simp [exec, execShlVxVy, State.writeResultAndFlag, hf] <;> rfl
  | _ => cases h; rfl

/-- What an instruction does to the two halting conditions: it leaves both, or it is Fx0A and suspends, or it raises one of
the three faults and does nothing else. -/
theorem exec_halt_cases {i : Instr} {s t : State} (h : exec i s = .next t) :
    (t.fault = s.fault ∧ t.wait = s.wait) ∨
    (∃ x, i = .ldVxK x ∧ t = s.setWait (some x)) ∨
    (∃ nnn, i = .sys nnn ∧ s.cfg.qsys = .fault ∧ t = s.raise .unknownOpcode) ∨
    (∃ nnn, i = .call nnn ∧ s.sp.val = 16 ∧ t = s.raise .stackOverflow) ∨
    (i = .ret ∧ s.sp.val = 0 ∧ t = s.raise .stackUnderflow) := by
  cases i with
  | sys nnn =>
    rcases execSys_cases nnn s with ⟨hq, e⟩ | ⟨hq, e⟩
    · cases e.symm.trans h; exact .inl ⟨rfl, rfl⟩
    · cases e.symm.trans h; exact .inr (.inr (.inl ⟨nnn, rfl, hq, rfl⟩))
  | call nnn =>
    rcases execCall_cases nnn s with ⟨hq, e⟩ | ⟨hq, e⟩
    · cases e.symm.trans h; exact .inr (.inr (.inr (.inl ⟨nnn, rfl, hq, rfl⟩)))
    · cases e.symm.trans h; exact .inl ⟨rfl, rfl⟩
  | ret =>
    rcases execRet_cases s with ⟨hq, e⟩ | ⟨hq, e⟩
    · cases e.symm.trans h; exact .inr (.inr (.inr (.inr ⟨rfl, hq, rfl⟩)))
    · cases e.symm.trans h; exact .inl ⟨rfl, rfl⟩
  | ldVxK x => cases h; exact .inr (.inl ⟨x, rfl, rfl⟩)
  | ldMemIVx x => cases h; rw [State.storeRegs_fields]; exact .inl ⟨rfl, rfl⟩
  | ldVxMemI x => cases h; rw [State.loadRegs_fields]; exact .inl ⟨rfl, rfl⟩
  | addIVx x => cases h; rw [State.writeIndexFlag_fields]; exact .inl ⟨rfl, rfl⟩
  | orVxVy x y => cases h; rw [State.writeLogic_fields]; exact .inl ⟨rfl, rfl⟩
  | andVxVy x y => cases h; rw [State.writeLogic_fields]; exact .inl ⟨rfl, rfl⟩
  | xorVxVy x y => cases h; rw [State.writeLogic_fields]; exact .inl ⟨rfl, rfl⟩
  | addVxVy x y => cases h; rw [State.writeResultAndFlag_fields]; exact .inl ⟨rfl, rfl⟩
  | subVxVy x y => cases h; rw [State.writeResultAndFlag_fields]; exact .inl ⟨rfl, rfl⟩
  | subnVxVy x y => cases h; rw [State.writeResultAndFlag_fields]; exact .inl ⟨rfl, rfl⟩
  | shrVxVy x y => cases h; rw [State.writeResultAndFlag_fields]; exact .inl ⟨rfl, rfl⟩
  | shlVxVy x y => cases h; rw [State.writeResultAndFlag_fields]; exact .inl ⟨rfl, rfl⟩
  | cls | jp | seVxKk | sneVxKk | seVxVy | ldVxKk | addVxKk | ldVxVy | sneVxVy | ldINnn | jpV0Nnn | rndVxKk | drwVxVyN
  | skpVx | sknpVx | ldVxDt | ldDtVx | ldStVx | ldFVx | ldBVx => cases h; exact .inl ⟨rfl, rfl⟩

end Sys2Proof.Machine
end

