-- ==== Sys2Proof/Laws/PerInstr.lean ====
section
/-! SUPPORT. One law for each instruction as syntax: its word has the fixed bits of its row of the opcode table
(30_encoding.md R49). -/

namespace Sys2Proof.Laws.EncodeMatchesRow

/-- The word of `i`, masked as its row says, is the row's pattern. -/
def Statement (i : Instr) : Prop := encode i &&& i.row.mask = i.row.pattern

/-- Format `FA` under the mask of its rows. -/
theorem and_formatFA (op : BitVec 4) (nnn : Addr) : formatFA op nnn &&& 0xF000#16 = formatFA op 0 := by
  apply BitVec.eq_of_getLsbD_eq; intro j hj
  rw [BitVec.getLsbD_and, getLsbD_formatFA, getLsbD_formatFA]
  interval_cases j <;> simp

/-- Format `FXK` under the mask that leaves both operands out. -/
theorem and_formatFXK (op : BitVec 4) (x : Reg) (kk : Byte) :
    formatFXK op x kk &&& 0xF000#16 = formatFXK op 0 0 := by
  apply BitVec.eq_of_getLsbD_eq; intro j hj
  rw [BitVec.getLsbD_and, getLsbD_formatFXK, getLsbD_formatFXK]
  interval_cases j <;> simp

/-- Format `FX` under the mask that leaves the register out. -/
theorem and_formatFX (op : BitVec 4) (x : Reg) (minor : Byte) :
    formatFXK op x minor &&& 0xF0FF#16 = formatFXK op 0 minor := by
  apply BitVec.eq_of_getLsbD_eq; intro j hj
  rw [BitVec.getLsbD_and, getLsbD_formatFXK, getLsbD_formatFXK]
  interval_cases j <;> simp

/-- Format `FXYN` under the mask that leaves all three operands out. -/
theorem and_formatFXYN (op : BitVec 4) (x y : Reg) (n : BitVec 4) :
    formatFXYN op x y n &&& 0xF000#16 = formatFXYN op 0 0 0 := by
  apply BitVec.eq_of_getLsbD_eq; intro j hj
  rw [BitVec.getLsbD_and, getLsbD_formatFXYN, getLsbD_formatFXYN]
  interval_cases j <;> simp

/-- Format `FXY` under the mask that leaves both registers out. -/
theorem and_formatFXY (op : BitVec 4) (x y : Reg) (minor : BitVec 4) :
    formatFXYN op x y minor &&& 0xF00F#16 = formatFXYN op 0 0 minor := by
  apply BitVec.eq_of_getLsbD_eq; intro j hj
  rw [BitVec.getLsbD_and, getLsbD_formatFXYN, getLsbD_formatFXYN]
  interval_cases j <;> simp

theorem sys (nnn : Addr) : Statement (.sys nnn) := (and_formatFA _ nnn).trans rfl
theorem cls : Statement (.cls) := rfl
theorem ret : Statement (.ret) := rfl
theorem jp (nnn : Addr) : Statement (.jp nnn) := (and_formatFA _ nnn).trans rfl
theorem call (nnn : Addr) : Statement (.call nnn) := (and_formatFA _ nnn).trans rfl
theorem seVxKk (x : Reg) (kk : Byte) : Statement (.seVxKk x kk) := (and_formatFXK _ x kk).trans rfl
theorem sneVxKk (x : Reg) (kk : Byte) : Statement (.sneVxKk x kk) := (and_formatFXK _ x kk).trans rfl
theorem seVxVy (x : Reg) (y : Reg) : Statement (.seVxVy x y) := (and_formatFXY _ x y _).trans rfl
theorem ldVxKk (x : Reg) (kk : Byte) : Statement (.ldVxKk x kk) := (and_formatFXK _ x kk).trans rfl
theorem addVxKk (x : Reg) (kk : Byte) : Statement (.addVxKk x kk) := (and_formatFXK _ x kk).trans rfl
theorem ldVxVy (x : Reg) (y : Reg) : Statement (.ldVxVy x y) := (and_formatFXY _ x y _).trans rfl
theorem orVxVy (x : Reg) (y : Reg) : Statement (.orVxVy x y) := (and_formatFXY _ x y _).trans rfl
theorem andVxVy (x : Reg) (y : Reg) : Statement (.andVxVy x y) := (and_formatFXY _ x y _).trans rfl
theorem xorVxVy (x : Reg) (y : Reg) : Statement (.xorVxVy x y) := (and_formatFXY _ x y _).trans rfl
theorem addVxVy (x : Reg) (y : Reg) : Statement (.addVxVy x y) := (and_formatFXY _ x y _).trans rfl
theorem subVxVy (x : Reg) (y : Reg) : Statement (.subVxVy x y) := (and_formatFXY _ x y _).trans rfl
theorem shrVxVy (x : Reg) (y : Reg) : Statement (.shrVxVy x y) := (and_formatFXY _ x y _).trans rfl
theorem subnVxVy (x : Reg) (y : Reg) : Statement (.subnVxVy x y) := (and_formatFXY _ x y _).trans rfl
theorem shlVxVy (x : Reg) (y : Reg) : Statement (.shlVxVy x y) := (and_formatFXY _ x y _).trans rfl
theorem sneVxVy (x : Reg) (y : Reg) : Statement (.sneVxVy x y) := (and_formatFXY _ x y _).trans rfl
theorem ldINnn (nnn : Addr) : Statement (.ldINnn nnn) := (and_formatFA _ nnn).trans rfl
theorem jpV0Nnn (nnn : Addr) : Statement (.jpV0Nnn nnn) := (and_formatFA _ nnn).trans rfl
theorem rndVxKk (x : Reg) (kk : Byte) : Statement (.rndVxKk x kk) := (and_formatFXK _ x kk).trans rfl
theorem drwVxVyN (x : Reg) (y : Reg) (n : Fin 16) : Statement (.drwVxVyN x y n) := (and_formatFXYN _ x y _).trans rfl
theorem skpVx (x : Reg) : Statement (.skpVx x) := (and_formatFX _ x _).trans rfl
theorem sknpVx (x : Reg) : Statement (.sknpVx x) := (and_formatFX _ x _).trans rfl
theorem ldVxDt (x : Reg) : Statement (.ldVxDt x) := (and_formatFX _ x _).trans rfl
theorem ldVxK (x : Reg) : Statement (.ldVxK x) := (and_formatFX _ x _).trans rfl
theorem ldDtVx (x : Reg) : Statement (.ldDtVx x) := (and_formatFX _ x _).trans rfl
theorem ldStVx (x : Reg) : Statement (.ldStVx x) := (and_formatFX _ x _).trans rfl
theorem addIVx (x : Reg) : Statement (.addIVx x) := (and_formatFX _ x _).trans rfl
theorem ldFVx (x : Reg) : Statement (.ldFVx x) := (and_formatFX _ x _).trans rfl
theorem ldBVx (x : Reg) : Statement (.ldBVx x) := (and_formatFX _ x _).trans rfl
theorem ldMemIVx (x : Reg) : Statement (.ldMemIVx x) := (and_formatFX _ x _).trans rfl
theorem ldVxMemI (x : Reg) : Statement (.ldVxMemI x) := (and_formatFX _ x _).trans rfl

end Sys2Proof.Laws.EncodeMatchesRow
end

