-- ==== Sys2Proof/Tests/Slice0.lean ====
section
/-! SUPPORT. The model's own tests. Every expected result is a vector of 95_test_vectors.md or a worked example of the rule named
beside it, never the model's own answer. A witness shows a concrete state and operands that meet the hypotheses of a statement. -/

namespace Sys2Proof.Tests

open Sys2Proof Sys2Proof.Machine

/-! ### Helpers -/

/-- The next state of an outcome, the reset state when there is none. -/
def nextOf (o : Host.Outcome State Fault Refusal) : State :=
  match o with
  | .next t => t
  | .fault _ => State.reset
  | .refused _ => State.reset

/-- The state after one step that runs the word `w` at PC. -/
def runWord (w : Nat) (s : State) : State := nextOf (step (s.withFetchWord 16 w))

/-- The reset state with some registers set. -/
def withRegs (l : List (Reg × Byte)) : State := l.foldl (fun s p => s.setV p.1 p.2) State.reset

/-- A state with the parameters changed. -/
def withCfg (f : Config → Config) (s : State) : State := { s with cfg := f s.cfg }

/-- The number of set pixels. -/
def litCount (f : Frame) : Nat := (f.toList.map fun row => ((List.range 64).filter row.getLsbD).length).sum

/-- A stack of `n` addresses 0x202, the depth `n`. -/
def withDepth (n : Fin 17) : State := { State.reset with sp := n, stack := Vector.replicate 16 0x202 }

/-! ### Well-formedness: the check refuses the terms that have no word (30_encoding.md R50) -/

theorem test_sys_0E0_is_ill_formed : (Instr.sys 0x0E0).wellFormed = false := by decide
theorem test_sys_0EE_is_ill_formed : (Instr.sys 0x0EE).wellFormed = false := by decide
theorem test_sys_0E1_is_well_formed : (Instr.sys 0x0E1).wellFormed = true := by decide

/-! ### Decoding: one word written out for each row of 30_encoding.md R49 -/

theorem test_decode_control :
    decode 0b0000000100100011 = .known (.sys 0x123) ∧ decode 0b0000000011101110 = .known .ret ∧
    decode 0b0001101010111100 = .known (.jp 0xABC) ∧ decode 0b0010001100000000 = .known (.call 0x300) ∧
    decode 0b1011001100000000 = .known (.jpV0Nnn 0x300) := by decide

theorem test_decode_skips :
    decode 0b0011101000000101 = .known (.seVxKk 0xA 0x05) ∧ decode 0b0100001100001000 = .known (.sneVxKk 0x3 0x08) ∧
    decode 0b0101000100100000 = .known (.seVxVy 0x1 0x2) ∧ decode 0b1001000100100000 = .known (.sneVxVy 0x1 0x2) ∧
    decode 0b1110001010011110 = .known (.skpVx 0x2) ∧ decode 0b1110001010100001 = .known (.sknpVx 0x2) := by decide

theorem test_decode_alu :
    decode 0b0110101000000101 = .known (.ldVxKk 0xA 0x05) ∧ decode 0b0111000100000001 = .known (.addVxKk 0x1 0x01) ∧
    decode 0b1000000100100000 = .known (.ldVxVy 0x1 0x2) ∧ decode 0b1000000100100001 = .known (.orVxVy 0x1 0x2) ∧
    decode 0b1000000100100010 = .known (.andVxVy 0x1 0x2) ∧ decode 0b1000000100100011 = .known (.xorVxVy 0x1 0x2) ∧
    decode 0b1000000100100100 = .known (.addVxVy 0x1 0x2) ∧ decode 0b1000000100100101 = .known (.subVxVy 0x1 0x2) ∧
    decode 0b1000000100100110 = .known (.shrVxVy 0x1 0x2) ∧ decode 0b1000000100100111 = .known (.subnVxVy 0x1 0x2) ∧
    decode 0b1000000100101110 = .known (.shlVxVy 0x1 0x2) := by decide

theorem test_decode_index :
    decode 0b1010000100100011 = .known (.ldINnn 0x123) ∧ decode 0b1111001000011110 = .known (.addIVx 0x2) ∧
    decode 0b1111001100101001 = .known (.ldFVx 0x3) ∧ decode 0b1111000100110011 = .known (.ldBVx 0x1) ∧
    decode 0b1111000101010101 = .known (.ldMemIVx 0x1) ∧ decode 0b1111001001100101 = .known (.ldVxMemI 0x2) := by decide

theorem test_decode_display_and_input :
    decode 0b0000000011100000 = .known .cls ∧ decode 0b1101000100100101 = .known (.drwVxVyN 0x1 0x2 0x5) ∧
    decode 0b1111010100000111 = .known (.ldVxDt 0x5) ∧ decode 0b1111001100001010 = .known (.ldVxK 0x3) ∧
    decode 0b1111010100010101 = .known (.ldDtVx 0x5) ∧ decode 0b1111011000011000 = .known (.ldStVx 0x6) ∧
    decode 0b1100001100001111 = .known (.rndVxKk 0x3 0x0F) := by decide

/-- Unknown words of T-DEC. -/
theorem test_decode_unknown :
    [0x5121, 0x8008, 0x800D, 0x800F, 0x9001, 0xE09F, 0xF000, 0xFFFF].all
      (fun w => decide (decode w = .unknown w)) = true := by decide

/-- The host's reading of a table word, and the encoder on the same words (R53). -/
theorem test_decodeTableWord : decodeTableWord 16 0x8124 = some (.addVxVy 0x1 0x2) ∧ decodeTableWord 16 0x5121 = none := by
  decide
theorem test_encode : encode (.drwVxVyN 0x1 0x2 0x5) = 0xD125 ∧ encode (.ldVxMemI 0x2) = 0xF265 := by decide

/-- The rows of the table are pairwise disjoint (R50), SYS apart, which the two fixed words overlap. -/
theorem test_rows_disjoint :
    ([Instr.cls, .ret, .jp 0, .call 0, .seVxKk 0 0, .sneVxKk 0 0, .seVxVy 0 0, .ldVxKk 0 0, .addVxKk 0 0, .ldVxVy 0 0,
      .orVxVy 0 0, .andVxVy 0 0, .xorVxVy 0 0, .addVxVy 0 0, .subVxVy 0 0, .shrVxVy 0 0, .subnVxVy 0 0, .shlVxVy 0 0,
      .sneVxVy 0 0, .ldINnn 0, .jpV0Nnn 0, .rndVxKk 0 0, .drwVxVyN 0 0 0, .skpVx 0, .sknpVx 0, .ldVxDt 0, .ldVxK 0,
      .ldDtVx 0, .ldStVx 0, .addIVx 0, .ldFVx 0, .ldBVx 0, .ldMemIVx 0, .ldVxMemI 0].map Instr.row).Pairwise
      (fun p q => p.pattern &&& (p.mask &&& q.mask) ≠ q.pattern &&& (p.mask &&& q.mask)) := by decide

/-! ### T-ALU -/

theorem test_A1_A2 : (runWord 0x6A05 State.reset).getV 0xA = 0x05 ∧ (runWord 0x6A05 State.reset).pc = 0x202 ∧
    (runWord 0x6FFF State.reset).getV 0xF = 0xFF := by decide
theorem test_A3 : (runWord 0x7101 (withRegs [(1, 0xFF), (0xF, 0x55)])).getV 1 = 0x00 ∧
    (runWord 0x7101 (withRegs [(1, 0xFF), (0xF, 0x55)])).getV 0xF = 0x55 := by decide
theorem test_A5 : (runWord 0x8120 (withRegs [(2, 0x34)])).getV 1 = 0x34 := by decide
theorem test_A6_A10 : (runWord 0x8121 (withRegs [(1, 0xF0), (2, 0x0F), (0xF, 0x01)])).getV 1 = 0xFF ∧
    (runWord 0x8121 (withRegs [(1, 0xF0), (2, 0x0F), (0xF, 0x01)])).getV 0xF = 0x01 ∧
    (runWord 0x8121 (withCfg (fun c => { c with qlogic := .reset }) (withRegs [(1, 0xF0), (2, 0x0F), (0xF, 0x01)]))).getV 0xF
      = 0x00 := by decide
theorem test_A7 : (runWord 0x8122 (withRegs [(1, 0xF0), (2, 0x3C)])).getV 1 = 0x30 := by decide
theorem test_A8_A9 : (runWord 0x8123 (withRegs [(1, 0xF0), (2, 0x3C)])).getV 1 = 0xCC ∧
    (runWord 0x8113 (withRegs [(1, 0xAB)])).getV 1 = 0x00 := by decide
theorem test_A11_A13 : (runWord 0x8124 (withRegs [(1, 0xF0), (2, 0x20)])).getV 1 = 0x10 ∧
    (runWord 0x8124 (withRegs [(1, 0xF0), (2, 0x20)])).getV 0xF = 1 ∧
    (runWord 0x8124 (withRegs [(1, 0x7F), (2, 0x80)])).getV 1 = 0xFF ∧
    (runWord 0x8124 (withRegs [(1, 0x7F), (2, 0x80)])).getV 0xF = 0 := by decide
theorem test_A15 : (runWord 0x8F14 (withRegs [(0xF, 0x10), (1, 0x20)])).getV 0xF = 0x00 ∧
    (runWord 0x8F14 (withCfg (fun c => { c with qflag := .resultLast }) (withRegs [(0xF, 0x10), (1, 0x20)]))).getV 0xF
      = 0x30 := by decide
theorem test_A16 : (runWord 0x8125 (withRegs [(1, 0x10), (2, 0x20)])).getV 1 = 0xF0 ∧
    (runWord 0x8125 (withRegs [(1, 0x10), (2, 0x20)])).getV 0xF = 0 := by decide
theorem test_A18 : (runWord 0x8125 (withRegs [(1, 0x42), (2, 0x42)])).getV 0xF = 1 ∧
    (runWord 0x8125 (withCfg (fun c => { c with qborrow := .gt }) (withRegs [(1, 0x42), (2, 0x42)]))).getV 0xF = 0 := by decide
theorem test_A20_A21 : (runWord 0x8127 (withRegs [(1, 0x10), (2, 0x20)])).getV 1 = 0x10 ∧
    (runWord 0x8127 (withRegs [(1, 0x10), (2, 0x20)])).getV 0xF = 1 ∧
    (runWord 0x8127 (withRegs [(1, 0x20), (2, 0x10)])).getV 1 = 0xF0 := by decide
theorem test_A22_A24 : (runWord 0x8106 (withRegs [(1, 0x05)])).getV 1 = 0x02 ∧
    (runWord 0x8106 (withRegs [(1, 0x05)])).getV 0xF = 1 ∧
    (runWord 0x8126 (withCfg (fun c => { c with qshift := .vy }) (withRegs [(2, 0x03)]))).getV 1 = 0x01 := by decide
theorem test_A25_A28 : (runWord 0x810E (withRegs [(1, 0x81)])).getV 1 = 0x02 ∧
    (runWord 0x810E (withRegs [(1, 0x81)])).getV 0xF = 1 ∧ (runWord 0x8F0E (withRegs [(0xF, 0x40)])).getV 0xF = 0x00 := by decide

/-! ### T-SKIP -/

theorem test_S1_S2 : (runWord 0x3A05 ((withRegs [(0xA, 0x05)]).setPc 0x202)).pc = 0x206 ∧
    (runWord 0x3A06 ((withRegs [(0xA, 0x05)]).setPc 0x202)).pc = 0x204 := by decide
theorem test_S3_S4 : (runWord 0x4308 ((withRegs [(3, 0x07)]).setPc 0x300)).pc = 0x304 ∧
    (runWord 0x4307 ((withRegs [(3, 0x07)]).setPc 0x300)).pc = 0x302 := by decide
theorem test_S5_S7 : (runWord 0x5120 ((withRegs [(1, 0x42), (2, 0x42)]).setPc 0x300)).pc = 0x304 ∧
    (runWord 0x5120 ((withRegs [(1, 0x01), (2, 0x02)]).setPc 0x300)).pc = 0x302 := by decide
theorem test_S8_S9 : (runWord 0x9120 ((withRegs [(1, 0x01), (2, 0x02)]).setPc 0x300)).pc = 0x304 ∧
    (runWord 0x9110 (State.reset.setPc 0x300)).pc = 0x302 := by decide
theorem test_S10 : (runWord 0x3000 (State.reset.setPc 0xFFE)).pc = 0x1002 := by decide
theorem test_S11 : (runWord 0x5121 (State.reset.setPc 0x300)).fault = some .unknownOpcode ∧
    (runWord 0x5121 (State.reset.setPc 0x300)).pc = 0x300 ∧ Fault.unknownOpcode.code = 1 := by decide

/-! ### T-CTRL -/

theorem test_J1 : (runWord 0x1ABC State.reset).pc = 0xABC := by decide
theorem test_J2 : (runWord 0x2300 State.reset).stack[0] = 0x202 ∧ (runWord 0x2300 State.reset).sp.val = 1 ∧
    (runWord 0x2300 State.reset).pc = 0x300 := by decide
theorem test_J3 : (runWord 0x2300 (withDepth 16)).fault = some .stackOverflow ∧ (runWord 0x2300 (withDepth 16)).sp.val = 16 ∧
    (runWord 0x2300 (withDepth 16)).pc = 0x200 := by decide
theorem test_J4 : (runWord 0x00EE (withDepth 1)).pc = 0x202 ∧ (runWord 0x00EE (withDepth 1)).sp.val = 0 ∧
    (runWord 0x00EE (withDepth 1)).stack[0] = 0x202 := by decide
theorem test_J5 : (runWord 0x00EE (State.reset.setPc 0x300)).fault = some .stackUnderflow ∧
    (runWord 0x00EE (State.reset.setPc 0x300)).pc = 0x300 := by decide
theorem test_J6_J8 : (runWord 0xBFFF (withRegs [(0, 0xFF)])).pc = 0x10FE ∧
    (runWord 0xB234 (withCfg (fun c => { c with qjump := .vx }) (withRegs [(2, 0x01), (0, 0x50)]))).pc = 0x235 := by decide
theorem test_J9 : (runWord 0x0123 State.reset).pc = 0x202 ∧ (runWord 0x0123 State.reset).fault = none ∧
    (runWord 0x0123 (withCfg (fun c => { c with qsys := .fault }) State.reset)).fault = some .unknownOpcode := by decide
theorem test_J10 : (runWord 0x2FFF (State.reset.setPc 0xFFE)).stack[0] = 0x1000 := by decide

/-! ### T-MEM -/

theorem test_M1 : (runWord 0xA123 State.reset).i = 0x123 := by decide
theorem test_M3 : (runWord 0xF11E ((withRegs [(1, 0x01)]).setI 0x0FFF)).i = 0x1000 ∧
    (runWord 0xF11E (withCfg (fun c => { c with qaddi := .overflow }) ((withRegs [(1, 0x01)]).setI 0x0FFF))).getV 0xF = 1 := by
  decide
theorem test_M5 : (runWord 0xF155 ((withRegs [(0, 0x11), (1, 0x22)]).setI 0x300)).memRead 0x300 = 0x11 ∧
    (runWord 0xF155 ((withRegs [(0, 0x11), (1, 0x22)]).setI 0x300)).memRead 0x301 = 0x22 ∧
    (runWord 0xF155 ((withRegs [(0, 0x11), (1, 0x22)]).setI 0x300)).memRead 0x302 = 0x00 ∧
    (runWord 0xF155 ((withRegs [(0, 0x11), (1, 0x22)]).setI 0x300)).i = 0x300 := by decide
theorem test_M6 :
    (runWord 0xF055 (withCfg (fun c => { c with qmemi := .plusXPlus1 }) ((withRegs [(0, 0xAA)]).setI 0x300))).i = 0x301 ∧
    (runWord 0xF055 (withCfg (fun c => { c with qmemi := .plusX }) ((withRegs [(0, 0xAA)]).setI 0x300))).i = 0x300 := by decide
theorem test_M8_M9 :
    (runWord 0xFF65 (((State.reset.setI 0x300).memWrite 0x300 0x01).memWrite 0x30F 0x77)).getV 0 = 0x01 ∧
    (runWord 0xFF65 (((State.reset.setI 0x300).memWrite 0x300 0x01).memWrite 0x30F 0x77)).getV 0xF = 0x77 := by decide
theorem test_M11 : (runWord 0xF133 ((withRegs [(1, 0x7B)]).setI 0xFFE)).memRead 0xFFE = 0x01 ∧
    (runWord 0xF133 ((withRegs [(1, 0x7B)]).setI 0xFFE)).memRead 0xFFF = 0x02 ∧
    (runWord 0xF133 ((withRegs [(1, 0x7B)]).setI 0xFFE)).memRead 0x000 = 0x03 := by decide
theorem test_M12_M14 : (runWord 0xF329 (withRegs [(3, 0x0B)])).i = 0x037 ∧ (runWord 0xF129 (withRegs [(1, 0x1A)])).i = 0x032 ∧
    (runWord 0xF029 (withCfg (fun c => { c with fontBase := 0x050 }) (withRegs [(0, 0x0F)]))).i = 0x09B := by decide

/-! ### T-DISP -/

theorem test_D1 : litCount (runWord 0xD015 State.reset).fb = 14 ∧ Frame.pixel (runWord 0xD015 State.reset).fb 3 1 = true ∧
    Frame.pixel (runWord 0xD015 State.reset).fb 4 0 = false ∧ (runWord 0xD015 State.reset).getV 0xF = 0 ∧
    (runWord 0xD015 State.reset).dirty = true := by decide
theorem test_D3 : Frame.pixel (runWord 0xD125 (withRegs [(1, 0x3E), (2, 0x1E)])).fb 1 2 = true ∧
    Frame.pixel (runWord 0xD125 (withRegs [(1, 0x3E), (2, 0x1E)])).fb 62 31 = true ∧
    litCount (runWord 0xD125 (withRegs [(1, 0x3E), (2, 0x1E)])).fb = 14 := by decide
theorem test_D9 : (runWord 0x00E0 ((withRegs [(0xF, 0x01)]).setFb (Frame.flip Frame.blank 5 6))).fb = Frame.blank ∧
    (runWord 0x00E0 (withRegs [(0xF, 0x01)])).getV 0xF = 0x01 ∧ (runWord 0x00E0 State.reset).dirty = true := by decide

/-! ### T-KEY, T-TIMER, T-RND -/

theorem test_K1_K5 : (runWord 0xE29E (((withRegs [(2, 0x15)]).setKey 5 true).setPc 0x300)).pc = 0x304 ∧
    (runWord 0xE29E ((withRegs [(2, 0x05)]).setPc 0x300)).pc = 0x302 := by decide
theorem test_K3_K4 : (runWord 0xE2A1 ((withRegs [(2, 0x05)]).setPc 0x300)).pc = 0x304 ∧
    (runWord 0xE2A1 (((withRegs [(2, 0x05)]).setKey 5 true).setPc 0x300)).pc = 0x302 := by decide
theorem test_K6 : (runWord 0xF30A (State.reset.setPc 0x204)).wait = some 3 ∧ (runWord 0xF30A (State.reset.setPc 0x204)).pc = 0x204 ∧
    ((runWord 0xF30A (State.reset.setPc 0x204)).keyDown 0xC).getV 3 = 0x0C ∧
    ((runWord 0xF30A (State.reset.setPc 0x204)).keyDown 0xC).pc = 0x206 := by decide
theorem test_K7 : ((runWord 0xF30A ((State.reset.setKey 2 true).setPc 0x204)).keyDown 2).wait = some 3 := by decide
theorem test_K10 : (runWord 0xF507 (State.reset.setDt 0x3C)).getV 5 = 0x3C := by decide
theorem test_K11_K12 : (runWord 0xF515 (withRegs [(5, 0x3C)])).dt = 0x3C ∧ (runWord 0xF618 (withRegs [(6, 0x02)])).st = 0x02 := by
  decide
theorem test_K13 : (({ State.reset with dt := 0x05, wait := some 1 }).tick).dt = 0x04 ∧
    (({ State.reset with dt := 0x05, wait := some 1 }).tick).st = 0x00 := by decide
/-- R1, with the drawn byte given: the draw itself is a free value. -/
theorem test_R1 : (rndWith 0xA7 3 0x0F State.reset).getV 3 = 0x07 := by decide

/-! ### Assembly spelling (the listings of 95_test_vectors.md section 3 and T-DEC) -/

theorem test_asm_text : (disassemble (.ldVxKk 0xA 0x05)).text = "LD VA, 0x05" ∧
    (disassemble (.drwVxVyN 0 0 0)).text = "DRW V0, V0, 0x0" ∧ (disassemble (.ldVxMemI 2)).text = "LD V2, [I]" ∧
    (disassemble (.jp 0x000)).text = "JP 0x000" ∧ (disassemble .cls).text = "CLS" := by decide

/-! ### Fetch, reset and the default font -/

/-- The word at 0xFFF takes its low byte from 0x000 (40_execution_cycle.md R57, 95_test_vectors.md fetch wrap). -/
theorem test_fetch_wraps : ((((State.reset.memWrite 0xFFF 0x12).memWrite 0x000 0x34).setPc 0xFFF).fetch) = 0x1234 ∧
    (nextOf (step (((State.reset.memWrite 0xFFF 0x12).memWrite 0x000 0x34).setPc 0xFFF))).pc = 0x234 := by decide

/-- Glyph A (20_memory.md R39) and the zeroed memory at 0x200 (R38). -/
theorem test_reset_memory : [0x032, 0x033, 0x034, 0x035, 0x036, 0x050, 0x200].map State.reset.memRead =
    [0xF0, 0x90, 0xF0, 0x90, 0x90, 0x00, 0x00] := by decide

/-! ### Witnesses: states and operands that meet the hypotheses of the statements -/

/-- A machine waiting at `F30A` at 0x200. -/
def waiting : State := (State.reset.withFetchWord 16 0xF30A).setWait (some 3)

/-- A machine that faulted at `00EE` at 0x200. -/
def faulted : State := (State.reset.withFetchWord 16 0x00EE).setFault (some .stackUnderflow)

theorem witness_DecodeEncodeRoundTrip : (Instr.sys 0xFFF).WellFormed ∧ (Instr.drwVxVyN 0xF 0xF 0xF).WellFormed := by decide
theorem witness_EncodeDecodeRoundTrip : decode 0xFF65 = .known (.ldVxMemI 0xF) := by decide
theorem witness_UnknownWordsAreTheListed : decode 0x5121 = .unknown 0x5121 := by decide
theorem witness_WordsSelectTheirTableRow :
    decode 0x00E0 = .known .cls ∧ (0x00E0 : Word) &&& (Instr.sys 0).row.mask = (Instr.sys 0).row.pattern := by decide
theorem witness_AssemblerAndDisassemblerAgree : (Instr.sys 0x0E1).WellFormed ∧
    assemble ⟨.ld, [.reg 0xA, .imm 0xFF]⟩ = some (.ldVxKk 0xA 0xFF) ∧ assemble ⟨.ld, [.reg 0xA, .imm 0x100]⟩ = none := by decide
theorem witness_StepRunsTheDecodedInstruction : State.reset.fault = none ∧ State.reset.wait = none ∧
    decode (State.reset.memRead State.reset.pc ++ State.reset.memRead (State.reset.pc + 1)) = .known (.sys 0x000) := by decide
theorem witness_FaultedStepReturnsTheFault : faulted.fault = some .stackUnderflow := by decide
theorem witness_WaitingStepChangesNothing : waiting.fault = none ∧ waiting.wait = some 3 := by decide
theorem witness_UnknownWordRaisesUnknownOpcode :
    (State.reset.withFetchWord 16 0xFFFF).fault = none ∧ (State.reset.withFetchWord 16 0xFFFF).wait = none ∧
    decode ((State.reset.withFetchWord 16 0xFFFF).memRead 0x200 ++ (State.reset.withFetchWord 16 0xFFFF).memRead 0x201) =
      .unknown 0xFFFF := by decide
theorem witness_FaultEntryIsPrecise : (State.reset.withFetchWord 16 0x00EE).fault = none ∧
    ∃ t, step (State.reset.withFetchWord 16 0x00EE) = .next t ∧ t.fault = some .stackUnderflow :=
  ⟨by decide, _, rfl, by decide⟩
theorem witness_FaultsHaveExactlyTheseCauses :
    FaultCause .unknownOpcode (State.reset.withFetchWord 16 0xFFFF) ∧
    FaultCause .unknownOpcode (withCfg (fun c => { c with qsys := .fault }) State.reset) ∧
    FaultCause .stackOverflow ((withDepth 16).withFetchWord 16 0x2200) ∧
    FaultCause .stackUnderflow (State.reset.withFetchWord 16 0x00EE) :=
  ⟨.inl ⟨0xFFFF, by decide⟩, .inr ⟨by decide, 0, by decide⟩, ⟨by decide, 0x200, by decide⟩, ⟨by decide, by decide⟩⟩
theorem witness_UnfaultedStepCompletes : State.reset.fault = none ∧ waiting.fault = none := by decide

theorem waiting_inv : waiting.Inv where
  memWf := by decide
  oneHalt := by decide
  waitAtKeyWait := by
    intro x hx
    have : x = 3 := by
      have h3 : waiting.wait = some 3 := by decide
      rw [h3] at hx; exact (Option.some.inj hx).symm
    subst this; decide
  faultAtCause := by
    intro f hf
    have h0 : waiting.fault = none := by decide
    rw [h0] at hf; cases hf

theorem witness_StepKeepsInvariant : waiting.Inv ∧ ∃ t, step waiting = .next t := ⟨waiting_inv, _, rfl⟩
theorem witness_HostEventsKeepInvariant : waiting.Inv ∧ (Event.keyDown 0xC).Admissible ∧ (Event.restore waiting).Admissible :=
  ⟨waiting_inv, trivial, waiting_inv⟩
theorem witness_EachFieldHasItsWriters : (∃ t, exec (.ldMemIVx 3) State.reset = .next t ∧ State.reset.cfg.qmemi = .unchanged) ∧
    ¬ MayWriteReg State.reset.cfg 4 (.ldVxMemI 3) ∧ MayWriteReg State.reset.cfg 3 (.ldVxMemI 3) ∧
    ∃ t, exec .ret State.reset = .next t ∧ t.fault ≠ State.reset.fault :=
  ⟨⟨_, rfl, rfl⟩, by simp [MayWriteReg], by simp [MayWriteReg], _, rfl, by decide⟩
theorem witness_OnlyStoresWriteMemory : (∃ t, exec (.ldVxMemI 3) State.reset = .next t) ∧
    ∀ x, Instr.ldVxMemI 3 ≠ .ldBVx x ∧ Instr.ldVxMemI 3 ≠ .ldMemIVx x :=
  ⟨⟨_, rfl⟩, fun x => ⟨by simp, by simp⟩⟩
theorem witness_VfChangesOnlyAsListed :
    ∃ t, exec (.ldVxKk vf 1) State.reset = .next t ∧ t.getV vf ≠ State.reset.getV vf := ⟨_, rfl, by decide⟩
theorem witness_OtherInstructionsAdvanceByTwo : State.reset.fault = none ∧
    (∃ t, exec .cls State.reset = .next t ∧ t.fault = none) ∧ (∃ t, exec .ret State.reset = .next t ∧ t.fault ≠ none) :=
  ⟨rfl, ⟨_, rfl, rfl⟩, ⟨_, rfl, by decide⟩⟩
theorem witness_CallPushesAndJumps : (withDepth 15).sp.val < 16 ∧ (withDepth 0).sp.val < 16 ∧ (withDepth 16).sp.val = 16 := by decide
theorem witness_ReturnPopsThePc : (withDepth 16).sp.val = (15 : Fin 16).val + 1 ∧ (withDepth 1).sp.val = (0 : Fin 16).val + 1 ∧
    (withDepth 0).sp.val = 0 := by decide
theorem witness_ReturnUndoesCall : State.reset.sp.val < 16 ∧ ∃ t u : State, exec (.call 0x300) State.reset = .next t ∧
    u.sp = t.sp ∧ u.stack = t.stack := ⟨by decide, _, _, rfl, rfl, rfl⟩
theorem witness_JumpPlusRegisterSetsPc : State.reset.cfg.qjump = .v0 ∧
    (withCfg (fun c => { c with qjump := .vx }) State.reset).cfg.qjump = .vx := by decide
theorem witness_SysAdvancesOrFaults : (0x0E1 : Addr) ≠ 0x0E0#12 ∧ (0x0E1 : Addr) ≠ 0x0EE#12 ∧ State.reset.cfg.qsys = .nop ∧
    (withCfg (fun c => { c with qsys := .fault }) State.reset).cfg.qsys = .fault := by decide
theorem witness_SkipsOnRegisters : (0xF#4 : BitVec 4) ≠ 0#4 := by decide
theorem witness_AddToIndexKeepsSixteenBits : State.reset.cfg.qaddi = .unaffected ∧
    (withCfg (fun c => { c with qaddi := .overflow }) State.reset).cfg.qaddi = .overflow := by decide
theorem witness_StoreRegistersWritesTheBlock :
    (0 : Reg).val ≤ (0xF : Reg).val ∧ (0xF : Reg).val ≤ (0xF : Reg).val ∧
    ∀ k : Reg, k.val ≤ (0xF : Reg).val → mask12 ((State.reset.setI 0xFF8).effAddr k.val) ≠ mask12 0x008 := by decide
theorem witness_LoadRegistersReadsTheBlock : (0xF : Reg).val ≤ (0xF : Reg).val ∧ ¬ (0xF : Reg).val ≤ (0xE : Reg).val := by decide
theorem witness_LoadReadsBackWhatStoreWrote : ∃ t u : State, exec (.ldMemIVx 2) (State.reset.setI 0x300) = .next t ∧
    u.mem = t.mem ∧ u.cfg = t.cfg ∧ u.i = (State.reset.setI 0x300).i := ⟨_, _, rfl, rfl, rfl, rfl⟩
theorem witness_DecimalDigitsAreStored :
    ∀ k < 3, mask12 ((State.reset.setI 0xFFE).effAddr k) ≠ mask12 0x001 := by decide
theorem witness_CanonicalMemoryIsExtensional :
    Memory.wf defaultConfig [(0x000, 0x12), (0x300, 0x01)] ∧ ¬ Memory.wf defaultConfig [(0x000, 0xF0)] := by decide
theorem witness_StoredWordIsExecutedNext : decode 0x00E0 = .known .cls := by decide
theorem witness_DrawFlipsExactlyTheLitPixels :
    SpriteLit State.reset 0 0 5 3 1 ∧ ¬ FrameHit State.reset (SpriteLit State.reset 0 0 5) ∧
    FrameHit (State.reset.setFb (Frame.flip Frame.blank 0 0)) (SpriteLit (State.reset.setFb (Frame.flip Frame.blank 0 0)) 0 0 5) :=
  ⟨⟨1, 3, by decide, by decide, by decide, by decide, by decide⟩,
   fun ⟨X, Y, _, h⟩ => by revert h; simp [Frame.pixel, State.reset, State.ofConfig],
   ⟨0, 0, ⟨0, 0, by decide, by decide, by decide, by decide, by decide⟩, by decide⟩⟩
theorem witness_not_lit : ¬ SpriteLit State.reset 0 0 0 3 1 := fun ⟨_, _, h, _⟩ => absurd h (Nat.not_lt_zero _)
theorem witness_DrawingTwiceRestoresTheFrame : (0 : Reg) ≠ vf ∧ (1 : Reg) ≠ vf ∧
    ∃ t u : State, exec (.drwVxVyN 0 1 5) State.reset = .next t ∧ exec (.drwVxVyN 0 1 5) t = .next u :=
  ⟨by decide, by decide, _, _, rfl, rfl⟩
theorem witness_KeyWaitSuspends : State.reset.fault = none := rfl
theorem witness_RandomByteIsMasked : (0x0F : Byte).getLsbD 7 = false := by decide
theorem witness_KeyPressResolvesTheWait : waiting.wait = some 3 ∧ waiting.getKey 0xC = false := by decide
theorem witness_OtherHostEventsMoveOneThing : State.reset.wait = none ∧ (State.reset.setKey 0xF true).getKey 0xF = true := by decide
theorem witness_ResetBuildsTheMachine : ([] : List Byte).length ≤ 3584 ∧ (List.replicate 3584 (0 : Byte)).length ≤ 3584 ∧
    3584 < (List.replicate 3585 (0 : Byte)).length :=
  ⟨Nat.zero_le _, Nat.le_of_eq (List.length_replicate ..), by rw [List.length_replicate]; omega⟩
theorem witness_KeyWaitLastsUntilAPress : waiting.fault = none ∧ waiting.wait = some 3 ∧
    ∀ e ∈ [Event.step, .tick, .displayAck, .keyUp 4], e = .step ∨ e = .tick ∨ e = .displayAck ∨ ∃ k, e = .keyUp k := by
  refine ⟨by decide, by decide, ?_⟩
  simp
theorem witness_FaultLastsUntilReset : faulted.fault = some .stackUnderflow ∧ faulted.wait = none ∧
    ∀ e ∈ [Event.step, .tick, .keyDown 4, .displayAck], (∀ c cart, e ≠ .reset c cart) ∧ ∀ snapshot, e ≠ .restore snapshot := by
  refine ⟨by decide, by decide, ?_⟩
  simp
/-- Reset ends a fault, and restore brings back a wait in place of one (60_exceptions.md R111, 70_reset_and_hazards.md R124, R126). -/
theorem test_reset_and_restore_end_a_fault : ((Event.reset defaultConfig []).apply faulted).fault = none ∧
    ((Event.restore waiting).apply faulted).fault = none ∧ ((Event.restore waiting).apply faulted).wait = some 3 := by decide
theorem witness_RestoreContinuesTheCapturedMachine :
    ∀ x kk, decode faulted.fetch ≠ .known (.rndVxKk x kk) := by
  intro x kk
  rw [show decode faulted.fetch = .known .ret by decide]
  simp
theorem witness_BreakpointPausesBeforeExecution : 0xFFF < 0x1000 ∧
    (Debugger.mk [] .running false).mode = .running ∧ (Debugger.mk [] .running false).resuming = false := by decide

/-- The gate at an address set by hand: V6. -/
theorem test_V6 : ((Debugger.mk [⟨0x202, true⟩] .running false).gatedStep (State.reset.setPc 0x202)).1.mode = .paused := by decide

end Sys2Proof.Tests
end

namespace Sys2Proof.Machine

/-- Settles O9: with `FAULT` clear, the pending key wait stops the step at its second gate, before any fetch (R56). -/
theorem waitingStepChangesNothing : Obligations.WaitingStepChangesNothing := by
  intro s x hfault hwait
  exact step_of_wait hfault hwait

end Sys2Proof.Machine

namespace Sys2Proof.Machine

/-- `PC <- mod_16(PC + 2)` read as numbers (R61). -/
theorem State.pcPlus_advance (s : State) : PcPlus s s.advance 2 := by
  simp [PcPlus, State.advance_eq, BitVec.toNat_add]

/-- What a plain register load does: the write, the next PC, and nothing else. -/
theorem State.setV_advance_spec (s : State) (x : Reg) (b : Byte) :
    (s.setV x b).advance.getV x = b ∧ PcPlus s (s.setV x b).advance 2 ∧
    OnlyRegs s (s.setV x b).advance (fun r => r = x) := by
  have hregs : SameRegs s (s.setV x b).advance (fun r => r = x) := fun r hr => s.getV_setV_ne x b r (Ne.symm hr)
  have hmem : SameMem s (s.setV x b).advance := s.memRead_setV x b
  exact ⟨s.getV_setV_self x b, (s.setV x b).pcPlus_advance, hregs, hmem, rfl⟩

theorem decode_encode_ldVxKk (x : Reg) (kk : Byte) : decode (encode (.ldVxKk x kk)) = .known (.ldVxKk x kk) := by
  simp [encode, decode]

theorem decode_encode_ldVxVy (x y : Reg) : decode (encode (.ldVxVy x y)) = .known (.ldVxVy x y) := by
  simp [encode, decode, decode8]

/-- Settles O21: 6xkk is the register load of its immediate (R68). -/
theorem loadImmediateSetsRegister : Obligations.LoadImmediateSetsRegister := by
  intro x kk s
  exact ⟨decode_encode_ldVxKk x kk, _, rfl, s.setV_advance_spec x kk⟩

/-- Settles O23: 8xy0 is the register load of what `V[y]` holds before it (R70), whether or not `x = y`. -/
theorem copyRegisterSetsRegister : Obligations.CopyRegisterSetsRegister := by
  intro x y s
  exact ⟨decode_encode_ldVxVy x y, _, rfl, s.setV_advance_spec x (s.getV y)⟩

end Sys2Proof.Machine

namespace Sys2Proof.Machine

/-- The frame of every instruction whose one effect is a new PC. -/
theorem State.onlyPc_setPc (s : State) (w : Word) : OnlyPc s (s.setPc w) :=
  ⟨fun r _ => s.getV_setPc w r, s.memRead_setPc w, rfl⟩

/-- What a conditional skip does (R79), with both distances read as numbers. -/
theorem State.skipIf_spec (s : State) (c : Bool) :
    PcPlus s (s.skipIf c) (if c then 4 else 2) ∧ OnlyPc s (s.skipIf c) := by
  refine ⟨?_, s.onlyPc_setPc _⟩
  cases c <;> simp [PcPlus, State.skipIf_eq, BitVec.toNat_add]

theorem decode_encode_seVxKk (x : Reg) (kk : Byte) : decode (encode (.seVxKk x kk)) = .known (.seVxKk x kk) := by
  simp [encode, decode]

theorem decode_encode_sneVxKk (x : Reg) (kk : Byte) : decode (encode (.sneVxKk x kk)) = .known (.sneVxKk x kk) := by
  simp [encode, decode]

/-- Settles O28: 3xkk and 4xkk are the skips on `V[x] == kk` (R80) and on `V[x] != kk` (R81). -/
theorem skipsOnImmediate : Obligations.SkipsOnImmediate := by
  intro x kk s
  have hse := s.skipIf_spec (s.getV x == kk)
  have hsne := s.skipIf_spec (s.getV x != kk)
  simp only [beq_iff_eq] at hse
  simp only [bne_iff_ne, ne_eq, ite_not] at hsne
  exact ⟨⟨decode_encode_seVxKk x kk, _, rfl, hse⟩, decode_encode_sneVxKk x kk, _, rfl, hsne⟩

end Sys2Proof.Machine

namespace Sys2Proof.Machine

theorem decode_encode_jp (nnn : Addr) : decode (encode (.jp nnn)) = .known (.jp nnn) := by
  simp [encode, decode]

theorem decode_encode_call (nnn : Addr) : decode (encode (.call nnn)) = .known (.call nnn) := by
  simp [encode, decode]

/-- `PC <- zext_16(nnn)` (R61) read as numbers: zero extension keeps the number of an address. -/
theorem State.toNat_pc_jump (s : State) (nnn : Addr) : (s.jump nnn).pc.toNat = nnn.toNat :=
  BitVec.toNat_setWidth_of_le (by decide)

/-- Settles O30: 1nnn is the jump to its operand and nothing else (R84). -/
theorem jumpSetsPc : Obligations.JumpSetsPc := by
  intro nnn s
  exact ⟨decode_encode_jp nnn, _, rfl, s.toNat_pc_jump nnn, s.onlyPc_setPc _⟩

/-- `mod_16(PC + 2)`, the return address of a call (R85), as the word of a number. -/
theorem add_two_eq_ofNat (w : Word) : w + 2 = BitVec.ofNat 16 ((w.toNat + 2) % 65536) :=
  BitVec.eq_of_toNat_eq (by simp [BitVec.toNat_add])

/-- Settles O31: the two ways a CALL goes (`execCall_cases`) are told apart by the depth (R85). -/
theorem callPushesAndJumps : Obligations.CallPushesAndJumps := by
  intro nnn s
  refine ⟨decode_encode_call nnn, fun hroom => ?_, fun hfull => ?_⟩
  · obtain ⟨hfull, _⟩ | ⟨_, hcall⟩ := execCall_cases nnn s
    · omega
    · refine ⟨_, hcall, rfl, s.toNat_pc_jump nnn, fun k => ?_, fun _ _ => rfl, fun _ => rfl, rfl⟩
      rw [← add_two_eq_ofNat]
      simp only [Fin.getElem_fin, Vector.getElem_set, eq_comm (a := k.val)]
  · obtain ⟨_, hcall⟩ | ⟨hroom, _⟩ := execCall_cases nnn s
    · exact hcall
    · omega

/-- Settles O32: the two ways a RET goes (`execRet_cases`) are told apart by the depth (R86). -/
theorem returnPopsThePc : Obligations.ReturnPopsThePc := by
  refine ⟨by decide, fun s => ⟨fun k hdepth => ?_, fun hempty => ?_⟩⟩
  · obtain ⟨hempty, _⟩ | ⟨_, hret⟩ := execRet_cases s
    · omega
    · have htop : s.sp.val - 1 = k.val := by omega
      have hpc : s.stack[s.sp.val - 1] = s.stack[k] := by simp only [htop, Fin.getElem_fin]
      exact ⟨_, hret, htop, hpc, rfl, fun _ _ => rfl, fun _ => rfl, rfl⟩
  · obtain ⟨_, hret⟩ | ⟨hne, _⟩ := execRet_cases s
    · exact hret
    · exact absurd hempty hne

end Sys2Proof.Machine

namespace Sys2Proof.Machine

/-- What an instruction that only loads I does: the write, the next PC, and nothing else. -/
theorem State.setI_advance_spec (s : State) (w : Word) :
    (s.setI w).advance.i = w ∧ PcPlus s (s.setI w).advance 2 ∧
    SameRegs s (s.setI w).advance (fun _ => False) ∧ SameMem s (s.setI w).advance ∧
    (s.setI w).advance = { s with i := (s.setI w).advance.i, pc := (s.setI w).advance.pc } :=
  ⟨rfl, (s.setI w).pcPlus_advance, fun r _ => s.getV_setI w r, s.memRead_setI w, rfl⟩

theorem decode_encode_ldINnn (nnn : Addr) : decode (encode (.ldINnn nnn)) = .known (.ldINnn nnn) := by
  simp [encode, decode]

/-- Settles O36: Annn is the load of I with its zero-extended operand (R89); extension keeps the number of an address. -/
theorem loadIndexSetsI : Obligations.LoadIndexSetsI := by
  intro nnn s
  obtain ⟨hi, hframe⟩ := s.setI_advance_spec (nnn.setWidth 16)
  have hnum : (nnn.setWidth 16).toNat = nnn.toNat := BitVec.toNat_setWidth_of_le (by decide)
  exact ⟨decode_encode_ldINnn nnn, _, rfl, hi ▸ hnum, hframe⟩

end Sys2Proof.Machine

namespace Sys2Proof.Machine

theorem decode_encode_ldVxDt (x : Reg) : decode (encode (.ldVxDt x)) = .known (.ldVxDt x) := by
  simp [encode, decode, decodeF]

theorem decode_encode_ldDtVx (x : Reg) : decode (encode (.ldDtVx x)) = .known (.ldDtVx x) := by
  simp [encode, decode, decodeF]

theorem decode_encode_ldStVx (x : Reg) : decode (encode (.ldStVx x)) = .known (.ldStVx x) := by
  simp [encode, decode, decodeF]

/-- Settles O50: Fx07 is the register load of the delay timer (R102). -/
theorem readDelayTimerSetsRegister : Obligations.ReadDelayTimerSetsRegister := by
  intro x s
  exact ⟨decode_encode_ldVxDt x, _, rfl, s.setV_advance_spec x s.dt⟩

/-- What a load of the delay timer does: the write, the next PC, and nothing else. -/
theorem State.setDt_advance_spec (s : State) (b : Byte) :
    (s.setDt b).advance.dt = b ∧ PcPlus s (s.setDt b).advance 2 ∧
    SameRegs s (s.setDt b).advance (fun _ => False) ∧ SameMem s (s.setDt b).advance ∧
    (s.setDt b).advance = { s with dt := (s.setDt b).advance.dt, pc := (s.setDt b).advance.pc } :=
  ⟨rfl, (s.setDt b).pcPlus_advance, fun r _ => s.getV_setDt b r, s.memRead_setDt b, rfl⟩

/-- What a load of the sound timer does: the write, the next PC, and nothing else. -/
theorem State.setSt_advance_spec (s : State) (b : Byte) :
    (s.setSt b).advance.st = b ∧ PcPlus s (s.setSt b).advance 2 ∧
    SameRegs s (s.setSt b).advance (fun _ => False) ∧ SameMem s (s.setSt b).advance ∧
    (s.setSt b).advance = { s with st := (s.setSt b).advance.st, pc := (s.setSt b).advance.pc } :=
  ⟨rfl, (s.setSt b).pcPlus_advance, fun r _ => s.getV_setSt b r, s.memRead_setSt b, rfl⟩

/-- Settles O51: Fx15 and Fx18 are the loads of the delay timer (R103) and of the sound timer (R104) with `V[x]`. -/
theorem timerWritesSetTimers : Obligations.TimerWritesSetTimers := by
  intro x s
  exact ⟨⟨decode_encode_ldDtVx x, _, rfl, s.setDt_advance_spec (s.getV x)⟩,
    decode_encode_ldStVx x, _, rfl, s.setSt_advance_spec (s.getV x)⟩

end Sys2Proof.Machine

namespace Sys2Proof.Machine

/-! ### The decoder and the encoder (30_encoding.md R49 to R53) -/

/-- `Instr.wellFormed` makes the exclusion that `decode0` makes: the words of CLS and RET are not words of SYS. -/
theorem wellFormed_sys_iff (nnn : Addr) : (Instr.sys nnn).WellFormed ↔ nnn ≠ 0x0E0#12 ∧ nnn ≠ 0x0EE#12 := by
  simp [Instr.WellFormed, Instr.wellFormed]

theorem decode0_formatFA {nnn : Addr} (hwf : (Instr.sys nnn).WellFormed) :
    decode0 (formatFA 0x0#4 nnn) = .known (.sys nnn) := by
  obtain ⟨hcls, hret⟩ := (wellFormed_sys_iff nnn).1 hwf
  have hne : ∀ w : Word, nnn ≠ nnnField w → formatFA 0x0#4 nnn ≠ w := by
    rintro w hw rfl
    exact hw (nnnField_formatFA 0x0#4 nnn).symm
  rw [decode0, if_neg (hne 0x00E0#16 hcls), if_neg (hne 0x00EE#16 hret), nnnField_formatFA]

/-- The decoder reads back every well-formed instruction, by the decoder that its opcode nibble selects. -/
theorem decode_encode {i : Instr} (hwf : i.WellFormed) : decode (encode i) = .known i := by
  cases i with
  | sys nnn => simpa [encode, decode] using decode0_formatFA hwf
  | cls | ret => rfl
  | ldVxVy | orVxVy | andVxVy | xorVxVy | addVxVy | subVxVy | shrVxVy | subnVxVy | shlVxVy =>
    simp [encode, decode, decode8]
  | skpVx | sknpVx => simp [encode, decode, decodeE]
  | ldVxDt | ldVxK | ldDtVx | ldStVx | addIVx | ldFVx | ldBVx | ldMemIVx | ldVxMemI =>
    simp [encode, decode, decodeF]
  | jp | call | seVxKk | sneVxKk | seVxVy | ldVxKk | addVxKk | sneVxVy | ldINnn | jpV0Nnn | rndVxKk | drwVxVyN =>
    simp [encode, decode]

/-- Settles O1: every row of the table, its operands read back from their fields (R53). -/
theorem decodeEncodeRoundTrip : Obligations.DecodeEncodeRoundTrip := fun _ hwf => decode_encode hwf

/-! ### A word is the encoding of what it decodes to -/

theorem formatFA_fields {w : Word} {op : BitVec 4} (hop : opField w = op) : formatFA op (nnnField w) = w :=
  hop ▸ (eq_formatFA w).symm

theorem formatFXK_fields {w : Word} {op : BitVec 4} (hop : opField w = op) :
    formatFXK op (xReg w) (kkField w) = w :=
  hop ▸ (eq_formatFXK w).symm

theorem formatFX_fields {w : Word} {op : BitVec 4} {minor : Byte} (hop : opField w = op) (hkk : kkField w = minor) :
    formatFXK op (xReg w) minor = w :=
  hkk ▸ formatFXK_fields hop

theorem formatFXYN_fields {w : Word} {op : BitVec 4} (hop : opField w = op) :
    formatFXYN op (xReg w) (yReg w) (nField w) = w :=
  hop ▸ (eq_formatFXYN w).symm

theorem formatFXY_fields {w : Word} {op minor : BitVec 4} (hop : opField w = op) (hn : nField w = minor) :
    formatFXYN op (xReg w) (yReg w) minor = w :=
  hn ▸ formatFXYN_fields hop

/-- The instruction is well-formed and `w` is its word. -/
def IsWordOf (w : Word) (i : Instr) : Prop := i.WellFormed ∧ encode i = w

theorem isWordOf_of_decode0 {w : Word} {i : Instr} (hop : opField w = 0x0#4) (h : decode0 w = .known i) :
    IsWordOf w i := by
  unfold decode0 at h
  split at h
  · next hw => cases h; exact ⟨rfl, hw.symm⟩
  · next hcls =>
    split at h
    · next hw => cases h; exact ⟨rfl, hw.symm⟩
    · next hret =>
      cases h
      have hw : formatFA 0x0 (nnnField w) = w := formatFA_fields hop
      have hne : ∀ nnn : Addr, w ≠ formatFA 0x0 nnn → nnnField w ≠ nnn := by
        rintro _ hn rfl
        exact hn hw.symm
      exact ⟨(wellFormed_sys_iff _).2 ⟨hne _ hcls, hne _ hret⟩, hw⟩

theorem isWordOf_of_decode8 {w : Word} {i : Instr} (hop : opField w = 0x8#4) (h : decode8 w = .known i) :
    IsWordOf w i := by
  unfold decode8 at h
  split at h <;> cases h
  all_goals next hn => exact ⟨rfl, formatFXY_fields hop hn⟩

theorem isWordOf_of_decodeE {w : Word} {i : Instr} (hop : opField w = 0xE#4) (h : decodeE w = .known i) :
    IsWordOf w i := by
  unfold decodeE at h
  split at h <;> cases h
  all_goals next hkk => exact ⟨rfl, formatFX_fields hop hkk⟩

theorem isWordOf_of_decodeF {w : Word} {i : Instr} (hop : opField w = 0xF#4) (h : decodeF w = .known i) :
    IsWordOf w i := by
  unfold decodeF at h
  split at h <;> cases h
  all_goals next hkk => exact ⟨rfl, formatFX_fields hop hkk⟩

/-- A minor nibble that must be 0, as 5xy0 and 9xy0 have. -/
theorem isWordOf_of_minor_zero {w : Word} {i j : Instr} {op : BitVec 4} (hop : opField w = op)
    (hj : j.WellFormed ∧ encode j = formatFXYN op (xReg w) (yReg w) 0x0)
    (h : (if nField w = 0x0#4 then Operation.known j else .unknown w) = .known i) : IsWordOf w i := by
  split at h <;> cases h
  next hn => exact ⟨hj.1, hj.2.trans (formatFXY_fields hop hn)⟩

theorem isWordOf_of_decode {w : Word} {i : Instr} (h : decode w = .known i) : IsWordOf w i := by
  unfold decode at h
  split at h
  case h_1 hop => exact isWordOf_of_decode0 hop h
  case h_9 hop => exact isWordOf_of_decode8 hop h
  case h_15 hop => exact isWordOf_of_decodeE hop h
  case h_16 hop => exact isWordOf_of_decodeF hop h
  case h_6 hop | h_10 hop => exact isWordOf_of_minor_zero hop ⟨rfl, rfl⟩ h
  case h_2 hop | h_3 hop | h_11 hop | h_12 hop => cases h; exact ⟨rfl, formatFA_fields hop⟩
  case h_4 hop | h_5 hop | h_7 hop | h_8 hop | h_13 hop => cases h; exact ⟨rfl, formatFXK_fields hop⟩
  case h_14 hop => cases h; exact ⟨rfl, formatFXYN_fields hop⟩
  case h_17 => cases h

/-- Settles O2: the fields that select the row, and those that give the operands, are the whole word (R50, R53). -/
theorem encodeDecodeRoundTrip : Obligations.EncodeDecodeRoundTrip := fun _ _ h => isWordOf_of_decode h

end Sys2Proof.Machine

namespace Sys2Proof.Machine

/-! ### The unknown words (30_encoding.md R51) -/

theorem decode0_known (w : Word) : ∃ i, decode0 w = .known i := by
  unfold decode0
  split
  · exact ⟨_, rfl⟩
  · split <;> exact ⟨_, rfl⟩

theorem unknown_iff_of_row {w u : Word} {row : Prop} (hrow : row) :
    Operation.unknown w = .unknown u ↔ u = w ∧ row := by
  simp [hrow, eq_comm]

theorem decode8_unknown_iff (w u : Word) :
    decode8 w = .unknown u ↔ u = w ∧ (nField w).toNat ∈ [8, 9, 0xA, 0xB, 0xC, 0xD, 0xF] := by
  unfold decode8
  split
  case h_10 h0 h1 h2 h3 h4 h5 h6 h7 hE =>
    generalize nField w = n at *
    have hrow : n.toNat ∈ [8, 9, 0xA, 0xB, 0xC, 0xD, 0xF] := by
      revert n; decide
    exact unknown_iff_of_row hrow
  all_goals next hn => simp [hn]

theorem decodeE_unknown_iff (w u : Word) :
    decodeE w = .unknown u ↔ u = w ∧ (kkField w).toNat ≠ 0x9E ∧ (kkField w).toNat ≠ 0xA1 := by
  unfold decodeE
  split
  case h_3 h1 h2 =>
    have hrow : (kkField w).toNat ≠ 0x9E ∧ (kkField w).toNat ≠ 0xA1 :=
      ⟨fun h => h1 (BitVec.eq_of_toNat_eq h), fun h => h2 (BitVec.eq_of_toNat_eq h)⟩
    exact unknown_iff_of_row hrow
  all_goals next hkk => simp [hkk]

theorem decodeF_unknown_iff (w u : Word) :
    decodeF w = .unknown u ↔
      u = w ∧ (kkField w).toNat ∉ [0x07, 0x0A, 0x15, 0x18, 0x1E, 0x29, 0x33, 0x55, 0x65] := by
  unfold decodeF
  split
  case h_10 h1 h2 h3 h4 h5 h6 h7 h8 h9 =>
    generalize kkField w = kk at *
    have hrow : kk.toNat ∉ [0x07, 0x0A, 0x15, 0x18, 0x1E, 0x29, 0x33, 0x55, 0x65] := by
      revert kk; decide
    exact unknown_iff_of_row hrow
  all_goals next hkk => simp [hkk]

theorem minor_zero_unknown_iff (w u : Word) (i : Instr) :
    (if nField w = 0x0#4 then Operation.known i else .unknown w) = .unknown u ↔ u = w ∧ (nField w).toNat ≠ 0 := by
  have hz : nField w = 0x0#4 ↔ (nField w).toNat = 0 := BitVec.toNat_eq
  split
  · next hn => simp [hz.1 hn]
  · next hn => exact unknown_iff_of_row (mt hz.2 hn)

/-- The rows of R51, over the fields of the word. -/
theorem decode_unknown_iff (w u : Word) :
    decode w = .unknown u ↔ u = w ∧
      (((opField w).toNat = 5 ∧ (nField w).toNat ≠ 0) ∨
       ((opField w).toNat = 8 ∧ (nField w).toNat ∈ [8, 9, 0xA, 0xB, 0xC, 0xD, 0xF]) ∨
       ((opField w).toNat = 9 ∧ (nField w).toNat ≠ 0) ∨
       ((opField w).toNat = 0xE ∧ (kkField w).toNat ≠ 0x9E ∧ (kkField w).toNat ≠ 0xA1) ∨
       ((opField w).toNat = 0xF ∧
         (kkField w).toNat ∉ [0x07, 0x0A, 0x15, 0x18, 0x1E, 0x29, 0x33, 0x55, 0x65])) := by
  unfold decode
  split
  case h_1 hop =>
    obtain ⟨i, hi⟩ := decode0_known w
    simp [hi, hop]
  case h_6 hop | h_10 hop => rw [minor_zero_unknown_iff]; simp [hop]
  case h_9 hop => rw [decode8_unknown_iff]; simp [hop]
  case h_15 hop => rw [decodeE_unknown_iff]; simp [hop]
  case h_16 hop => rw [decodeF_unknown_iff]; simp [hop]
  case h_17 h0 h1 h2 h3 h4 h5 h6 h7 h8 h9 hA hB hC hD hE hF =>
    exfalso
    generalize opField w = op at *
    revert op; decide
  all_goals next hop => simp [hop]

/-- Settles O3: the fields of a word are its digits (R46), so the rows of R51 can be read off its number. -/
theorem unknownWordsAreTheListed : Obligations.UnknownWordsAreTheListed := by
  intro w
  simp only [decode_unknown_iff, toNat_opField, toNat_nField, toNat_kkField]
  exact ⟨⟨fun ⟨_, _, hrow⟩ => hrow, fun hrow => ⟨w, rfl, hrow⟩⟩, fun _ ⟨hu, _⟩ => hu⟩

end Sys2Proof.Machine

namespace Sys2Proof.Machine

/-! ### The rows of the opcode table (30_encoding.md R49) -/

/-- The per-instruction laws of `Laws.EncodeMatchesRow`, as one statement over all instructions. -/
theorem encode_matches_row (i : Instr) : encode i &&& i.row.mask = i.row.pattern := by
  cases i
  case sys => exact Laws.EncodeMatchesRow.sys _
  case cls => exact Laws.EncodeMatchesRow.cls
  case ret => exact Laws.EncodeMatchesRow.ret
  case jp => exact Laws.EncodeMatchesRow.jp _
  case call => exact Laws.EncodeMatchesRow.call _
  case seVxKk => exact Laws.EncodeMatchesRow.seVxKk _ _
  case sneVxKk => exact Laws.EncodeMatchesRow.sneVxKk _ _
  case seVxVy => exact Laws.EncodeMatchesRow.seVxVy _ _
  case ldVxKk => exact Laws.EncodeMatchesRow.ldVxKk _ _
  case addVxKk => exact Laws.EncodeMatchesRow.addVxKk _ _
  case ldVxVy => exact Laws.EncodeMatchesRow.ldVxVy _ _
  case orVxVy => exact Laws.EncodeMatchesRow.orVxVy _ _
  case andVxVy => exact Laws.EncodeMatchesRow.andVxVy _ _
  case xorVxVy => exact Laws.EncodeMatchesRow.xorVxVy _ _
  case addVxVy => exact Laws.EncodeMatchesRow.addVxVy _ _
  case subVxVy => exact Laws.EncodeMatchesRow.subVxVy _ _
  case shrVxVy => exact Laws.EncodeMatchesRow.shrVxVy _ _
  case subnVxVy => exact Laws.EncodeMatchesRow.subnVxVy _ _
  case shlVxVy => exact Laws.EncodeMatchesRow.shlVxVy _ _
  case sneVxVy => exact Laws.EncodeMatchesRow.sneVxVy _ _
  case ldINnn => exact Laws.EncodeMatchesRow.ldINnn _
  case jpV0Nnn => exact Laws.EncodeMatchesRow.jpV0Nnn _
  case rndVxKk => exact Laws.EncodeMatchesRow.rndVxKk _ _
  case drwVxVyN => exact Laws.EncodeMatchesRow.drwVxVyN _ _ _
  case skpVx => exact Laws.EncodeMatchesRow.skpVx _
  case sknpVx => exact Laws.EncodeMatchesRow.sknpVx _
  case ldVxDt => exact Laws.EncodeMatchesRow.ldVxDt _
  case ldVxK => exact Laws.EncodeMatchesRow.ldVxK _
  case ldDtVx => exact Laws.EncodeMatchesRow.ldDtVx _
  case ldStVx => exact Laws.EncodeMatchesRow.ldStVx _
  case addIVx => exact Laws.EncodeMatchesRow.addIVx _
  case ldFVx => exact Laws.EncodeMatchesRow.ldFVx _
  case ldBVx => exact Laws.EncodeMatchesRow.ldBVx _
  case ldMemIVx => exact Laws.EncodeMatchesRow.ldMemIVx _
  case ldVxMemI => exact Laws.EncodeMatchesRow.ldVxMemI _

/-- A field that lies inside the mask is fixed by the row. -/
theorem opField_of_masked {w m p : Word} (h : w &&& m = p) (hm : opField m = 0xF#4) : opField w = opField p := by
  have hand : opField p = opField w &&& opField m := h ▸ BitVec.extractLsb'_and
  rw [hand, hm]
  exact BitVec.and_allOnes.symm

theorem nField_of_masked {w m p : Word} (h : w &&& m = p) (hm : nField m = 0xF#4) : nField w = nField p := by
  have hand : nField p = nField w &&& nField m := h ▸ BitVec.extractLsb'_and
  rw [hand, hm]
  exact BitVec.and_allOnes.symm

theorem kkField_of_masked {w m p : Word} (h : w &&& m = p) (hm : kkField m = 0xFF#8) : kkField w = kkField p := by
  have hand : kkField p = kkField w &&& kkField m := h ▸ BitVec.extractLsb'_and
  rw [hand, hm]
  exact BitVec.and_allOnes.symm

theorem eq_of_fully_masked {w p : Word} (h : w &&& 0xFFFF#16 = p) : w = p := by
  have hall : 0xFFFF#16 = BitVec.allOnes 16 := rfl
  rwa [hall, BitVec.and_allOnes] at h

/-- The words with the fixed bits of SYS are SYS and the two fixed words. -/
theorem decode0_row (w : Word) :
    ∃ j, decode0 w = .known j ∧ (j.row = ⟨0x0000, 0xF000⟩ ∨ j = .cls ∨ j = .ret) := by
  unfold decode0
  split
  · exact ⟨_, rfl, .inr (.inl rfl)⟩
  · split
    · exact ⟨_, rfl, .inr (.inr rfl)⟩
    · exact ⟨_, rfl, .inl rfl⟩

theorem nField_mask_FXY : nField 0xF00F#16 = 0xF#4 := by decide

theorem kkField_mask_FX : kkField 0xF0FF#16 = 0xFF#8 := by decide

/-- Every mask takes in the opcode. -/
theorem opField_mask (i : Instr) : opField i.row.mask = 0xF#4 := by
  cases i <;> simp [Instr.row, opField]

/-- A word with the fixed bits of the row of `i` selects that row: its opcode, and its minor opcode where the row has one. -/
theorem decode_of_row {w : Word} {i : Instr} (h : w &&& i.row.mask = i.row.pattern) :
    ∃ j, decode w = .known j ∧ (j.row = i.row ∨ (i.row = ⟨0x0000, 0xF000⟩ ∧ (j = .cls ∨ j = .ret))) := by
  have hop := opField_of_masked h (opField_mask i)
  cases i
  case sys =>
    obtain ⟨j, hj, hrow⟩ := decode0_row w
    simp [opField, Instr.row] at hop
    have hdec : decode w = decode0 w := by simp [decode, opField, hop]
    exact ⟨j, hdec.trans hj, hrow.imp_right fun hfixed => ⟨rfl, hfixed⟩⟩
  case cls =>
    have hw : w = 0x00E0#16 := eq_of_fully_masked h
    exact ⟨.cls, by rw [hw]; rfl, .inl rfl⟩
  case ret =>
    have hw : w = 0x00EE#16 := eq_of_fully_masked h
    exact ⟨.ret, by rw [hw]; rfl, .inl rfl⟩
  case jp | call | seVxKk | sneVxKk | ldVxKk | addVxKk | ldINnn | jpV0Nnn | rndVxKk | drwVxVyN =>
    simp [opField, Instr.row] at hop
    simp [decode, opField, hop, Instr.row]
  case seVxVy | sneVxVy =>
    have hn := nField_of_masked h nField_mask_FXY
    simp [opField, nField, Instr.row] at hop hn
    simp [decode, opField, nField, hop, hn, Instr.row]
  case ldVxVy | orVxVy | andVxVy | xorVxVy | addVxVy | subVxVy | shrVxVy | subnVxVy | shlVxVy =>
    have hn := nField_of_masked h nField_mask_FXY
    simp [opField, nField, Instr.row] at hop hn
    simp [decode, decode8, opField, nField, hop, hn, Instr.row]
  case skpVx | sknpVx =>
    have hkk := kkField_of_masked h kkField_mask_FX
    simp [opField, kkField, Instr.row] at hop hkk
    simp [decode, decodeE, opField, kkField, hop, hkk, Instr.row]
  case ldVxDt | ldVxK | ldDtVx | ldStVx | addIVx | ldFVx | ldBVx | ldMemIVx | ldVxMemI =>
    have hkk := kkField_of_masked h kkField_mask_FX
    simp [opField, kkField, Instr.row] at hop hkk
    simp [decode, decodeF, opField, kkField, hop, hkk, Instr.row]

/-- Settles O4: the row of a decoded word is that of its encoding; a word of a row has the opcodes that select it. -/
theorem wordsSelectTheirTableRow : Obligations.WordsSelectTheirTableRow := by
  refine ⟨fun w i h => ?_, fun w i h => decode_of_row h⟩
  obtain ⟨-, henc⟩ := isWordOf_of_decode h
  exact henc ▸ encode_matches_row i

end Sys2Proof.Machine

namespace Sys2Proof.Machine

/-! ### The assembler (30_encoding.md R53): each operand form accepts exactly the operands it spells -/

theorem immAddr_eq_some {n : Nat} {f : Addr → Instr} {i : Instr} :
    immAddr n f = some i ↔ ∃ nnn : Addr, n = nnn.toNat ∧ i = f nnn := by
  unfold immAddr
  constructor
  · intro h
    split at h <;> cases h
    next hn => exact ⟨BitVec.ofNat 12 n, (Nat.mod_eq_of_lt hn).symm, rfl⟩
  · rintro ⟨nnn, rfl, rfl⟩
    simp [show nnn.toNat < 0x1000 from nnn.isLt]

theorem immByte_eq_some {n : Nat} {f : Byte → Instr} {i : Instr} :
    immByte n f = some i ↔ ∃ kk : Byte, n = kk.toNat ∧ i = f kk := by
  unfold immByte
  constructor
  · intro h
    split at h <;> cases h
    next hn => exact ⟨BitVec.ofNat 8 n, (Nat.mod_eq_of_lt hn).symm, rfl⟩
  · rintro ⟨kk, rfl, rfl⟩
    simp [show kk.toNat < 0x100 from kk.isLt]

theorem immRows_eq_some {n : Nat} {f : Fin 16 → Instr} {i : Instr} :
    immRows n f = some i ↔ ∃ rows : Fin 16, n = rows.val ∧ i = f rows := by
  unfold immRows
  constructor
  · intro h
    split at h <;> cases h
    next hn => exact ⟨⟨n, hn⟩, rfl, rfl⟩
  · rintro ⟨rows, rfl, rfl⟩
    simp

theorem oneAddr_eq_some {f : Addr → Instr} {os : List AsmOperand} {i : Instr} :
    oneAddr f os = some i ↔ ∃ nnn : Addr, os = [.imm nnn.toNat] ∧ i = f nnn := by
  unfold oneAddr
  split
  · simp [immAddr_eq_some]
  · next hform =>
    simp only [reduceCtorEq, false_iff]
    rintro ⟨nnn, rfl, -⟩
    exact hform _ rfl

theorem regByte_eq_some {f : Reg → Byte → Instr} {os : List AsmOperand} {i : Instr} :
    regByte f os = some i ↔ ∃ (x : Reg) (kk : Byte), os = [.reg x, .imm kk.toNat] ∧ i = f x kk := by
  unfold regByte
  split
  · simp [immByte_eq_some]
  · next hform =>
    simp only [reduceCtorEq, false_iff]
    rintro ⟨x, kk, rfl, -⟩
    exact hform _ _ rfl

theorem twoRegs_eq_some {f : Reg → Reg → Instr} {os : List AsmOperand} {i : Instr} :
    twoRegs f os = some i ↔ ∃ x y : Reg, os = [.reg x, .reg y] ∧ i = f x y := by
  unfold twoRegs
  split
  · simp [eq_comm]
  · next hform =>
    simp only [reduceCtorEq, false_iff]
    rintro ⟨x, y, rfl, -⟩
    exact hform _ _ rfl

theorem oneReg_eq_some {f : Reg → Instr} {os : List AsmOperand} {i : Instr} :
    oneReg f os = some i ↔ ∃ x : Reg, os = [.reg x] ∧ i = f x := by
  unfold oneReg
  split
  · simp [eq_comm]
  · next hform =>
    simp only [reduceCtorEq, false_iff]
    rintro ⟨x, rfl, -⟩
    exact hform _ rfl

theorem noOperand_eq_some {j : Instr} {os : List AsmOperand} {i : Instr} :
    noOperand j os = some i ↔ os = [] ∧ i = j := by
  cases os <;> simp [noOperand, eq_comm]

theorem assembleDrw_eq_some {os : List AsmOperand} {i : Instr} :
    assembleDrw os = some i ↔
      ∃ (x y : Reg) (n : Fin 16), os = [.reg x, .reg y, .imm n.val] ∧ i = .drwVxVyN x y n := by
  unfold assembleDrw
  split
  · simp [immRows_eq_some]
  · next hform =>
    simp only [reduceCtorEq, false_iff]
    rintro ⟨x, y, n, rfl, -⟩
    exact hform _ _ _ rfl

/-! ### What a mnemonic accepts is the line of what it answers -/

theorem disassemble_of_assembleJp {os : List AsmOperand} {i : Instr} (h : assembleJp os = some i) :
    disassemble i = ⟨.jp, os⟩ := by
  unfold assembleJp at h
  split at h
  · obtain ⟨nnn, rfl, rfl⟩ := immAddr_eq_some.1 h
    rfl
  · split at h
    · next hr =>
      obtain ⟨nnn, rfl, rfl⟩ := immAddr_eq_some.1 h
      rw [hr]
      rfl
    · cases h
  · cases h

theorem disassemble_of_assembleAdd {os : List AsmOperand} {i : Instr} (h : assembleAdd os = some i) :
    disassemble i = ⟨.add, os⟩ := by
  unfold assembleAdd at h
  split at h
  · obtain ⟨kk, rfl, rfl⟩ := immByte_eq_some.1 h
    rfl
  all_goals cases h
  all_goals rfl

theorem disassemble_of_assembleLd {os : List AsmOperand} {i : Instr} (h : assembleLd os = some i) :
    disassemble i = ⟨.ld, os⟩ := by
  unfold assembleLd at h
  split at h
  case h_1 =>
    obtain ⟨kk, rfl, rfl⟩ := immByte_eq_some.1 h
    rfl
  case h_3 =>
    obtain ⟨nnn, rfl, rfl⟩ := immAddr_eq_some.1 h
    rfl
  all_goals cases h
  all_goals rfl

theorem disassemble_of_assembleForm {l : AsmLine} {i : Instr} (h : assembleForm l = some i) : disassemble i = l := by
  obtain ⟨m, os⟩ := l
  cases m
  case jp => exact disassemble_of_assembleJp h
  case ld => exact disassemble_of_assembleLd h
  case add => exact disassemble_of_assembleAdd h
  case sys | call => obtain ⟨nnn, rfl, rfl⟩ := oneAddr_eq_some.1 h; rfl
  case cls | ret => obtain ⟨rfl, rfl⟩ := noOperand_eq_some.1 h; rfl
  case se | sne =>
    obtain h | ⟨-, h⟩ := Option.or_eq_some_iff.1 h
    · obtain ⟨x, kk, rfl, rfl⟩ := regByte_eq_some.1 h; rfl
    · obtain ⟨x, y, rfl, rfl⟩ := twoRegs_eq_some.1 h; rfl
  case or | and | xor | sub | shr | subn | shl => obtain ⟨x, y, rfl, rfl⟩ := twoRegs_eq_some.1 h; rfl
  case rnd => obtain ⟨x, kk, rfl, rfl⟩ := regByte_eq_some.1 h; rfl
  case drw => obtain ⟨x, y, n, rfl, rfl⟩ := assembleDrw_eq_some.1 h; rfl
  case skp | sknp => obtain ⟨x, rfl, rfl⟩ := oneReg_eq_some.1 h; rfl

/-- An immediate that is an operand's number is in the operand's range. -/
@[simp] theorem immAddr_toNat (nnn : Addr) (f : Addr → Instr) : immAddr nnn.toNat f = some (f nnn) :=
  immAddr_eq_some.2 ⟨nnn, rfl, rfl⟩

@[simp] theorem immByte_toNat (kk : Byte) (f : Byte → Instr) : immByte kk.toNat f = some (f kk) :=
  immByte_eq_some.2 ⟨kk, rfl, rfl⟩

@[simp] theorem immRows_val (n : Fin 16) (f : Fin 16 → Instr) : immRows n.val f = some (f n) :=
  immRows_eq_some.2 ⟨n, rfl, rfl⟩

theorem assembleForm_disassemble (i : Instr) : assembleForm (disassemble i) = some i := by
  cases i
  case sys | jp | call | ldINnn | jpV0Nnn => exact immAddr_toNat _ _
  case seVxKk | sneVxKk => simp [disassemble, assembleForm, regByte]
  case ldVxKk | addVxKk | rndVxKk => exact immByte_toNat _ _
  case drwVxVyN => exact immRows_val _ _
  all_goals rfl

/-- Settles O6: the line is parsed back form by form, and both sides make the one exclusion of `wellFormed`. -/
theorem assemblerAndDisassemblerAgree : Obligations.AssemblerAndDisassemblerAgree := by
  refine ⟨fun i hwf => ?_, fun l i h => ?_⟩
  · exact Option.filter_eq_some_iff.2 ⟨assembleForm_disassemble i, hwf⟩
  · obtain ⟨hform, hwf⟩ := Option.filter_eq_some_iff.1 h
    exact ⟨hwf, disassemble_of_assembleForm hform⟩

/-- Settles O5: each word is decoded as written. -/
theorem sampleWordsDecode : Obligations.SampleWordsDecode := by
  unfold Obligations.SampleWordsDecode
  decide

end Sys2Proof.Machine

namespace Sys2Proof.Machine

/-! ### What each instruction may write (10_state.md)

One equation for each instruction says which fields of the state it may change; every rule about who writes what is read off it. -/

/-- `t` differs from `s` at most in the fields that the instruction names. -/
def ExecFrame (i : Instr) (s t : State) : Prop :=
  match i with
  | .sys _ => t = { s with pc := t.pc, fault := t.fault }
  | .call _ | .ret => t = { s with sp := t.sp, stack := t.stack, pc := t.pc, fault := t.fault }
  | .jp _ | .jpV0Nnn _ | .seVxKk _ _ | .sneVxKk _ _ | .seVxVy _ _ | .sneVxVy _ _ | .skpVx _ | .sknpVx _ =>
    t = { s with pc := t.pc }
  | .ldVxKk _ _ | .addVxKk _ _ | .ldVxVy _ _ | .orVxVy _ _ | .andVxVy _ _ | .xorVxVy _ _ | .addVxVy _ _ | .subVxVy _ _
  | .shrVxVy _ _ | .subnVxVy _ _ | .shlVxVy _ _ | .ldVxDt _ => t = { s with v := t.v, pc := t.pc }
  | .rndVxKk _ _ => t = { s with v := t.v, pc := t.pc, draws := t.draws }
  | .ldINnn _ | .ldFVx _ => t = { s with i := t.i, pc := t.pc }
  | .addIVx _ | .ldVxMemI _ => t = { s with v := t.v, i := t.i, pc := t.pc }
  | .ldBVx _ => t = { s with mem := t.mem, pc := t.pc }
  | .ldMemIVx _ => t = { s with mem := t.mem, i := t.i, pc := t.pc }
  | .cls => t = { s with fb := t.fb, dirty := t.dirty, pc := t.pc }
  | .drwVxVyN _ _ _ => t = { s with v := t.v, fb := t.fb, dirty := t.dirty, pc := t.pc }
  | .ldVxK _ => t = { s with wait := t.wait }
  | .ldDtVx _ => t = { s with dt := t.dt, pc := t.pc }
  | .ldStVx _ => t = { s with st := t.st, pc := t.pc }

theorem exec_frame {i : Instr} {s t : State} (h : exec i s = .next t) : ExecFrame i s t := by
  cases i with
  | sys nnn =>
    obtain ⟨_, e⟩ | ⟨_, e⟩ := execSys_cases nnn s <;> cases e.symm.trans h <;> rfl
  | call nnn =>
    obtain ⟨_, e⟩ | ⟨_, e⟩ := execCall_cases nnn s <;> cases e.symm.trans h <;> rfl
  | ret =>
    obtain ⟨_, e⟩ | ⟨_, e⟩ := execRet_cases s <;> cases e.symm.trans h <;> rfl
  | orVxVy | andVxVy | xorVxVy => cases h; rw [State.writeLogic_fields]; rfl
  | addVxVy | subVxVy | shrVxVy | subnVxVy | shlVxVy => cases h; rw [State.writeResultAndFlag_fields]; rfl
  | addIVx => cases h; rw [State.writeIndexFlag_fields]; rfl
  | ldMemIVx => cases h; rw [State.storeRegs_fields]; rfl
  | ldVxMemI => cases h; rw [State.loadRegs_fields]; rfl
  | cls | jp | seVxKk | sneVxKk | seVxVy | ldVxKk | addVxKk | ldVxVy | sneVxVy | ldINnn | jpV0Nnn | rndVxKk | drwVxVyN
  | skpVx | sknpVx | ldVxDt | ldVxK | ldDtVx | ldStVx | ldFVx | ldBVx => cases h; rfl

section Writers

variable {i : Instr} {s t : State}

theorem exec_mem (h : exec i s = .next t) (hi : ∀ x, i ≠ .ldBVx x ∧ i ≠ .ldMemIVx x) : t.mem = s.mem := by
  have hf := exec_frame h
  cases i with
  | ldBVx x => exact absurd rfl (hi x).1
  | ldMemIVx x => exact absurd rfl (hi x).2
  | _ => exact (congrArg State.mem hf :)

theorem exec_fault (h : exec i s = .next t) (hret : i ≠ .ret) (hi : ∀ nnn, i ≠ .call nnn ∧ i ≠ .sys nnn) :
    t.fault = s.fault := by
  have hf := exec_frame h
  cases i with
  | ret => exact absurd rfl hret
  | call nnn => exact absurd rfl (hi nnn).1
  | sys nnn => exact absurd rfl (hi nnn).2
  | _ => exact (congrArg State.fault hf :)

theorem exec_sp_stack (h : exec i s = .next t) (hret : i ≠ .ret) (hi : ∀ nnn, i ≠ .call nnn) :
    t.sp = s.sp ∧ t.stack = s.stack := by
  have hf := exec_frame h
  cases i with
  | ret => exact absurd rfl hret
  | call nnn => exact absurd rfl (hi nnn)
  | _ => exact ⟨(congrArg State.sp hf :), (congrArg State.stack hf :)⟩

theorem exec_fb_dirty (h : exec i s = .next t) (hcls : i ≠ .cls) (hi : ∀ x y n, i ≠ .drwVxVyN x y n) :
    t.fb = s.fb ∧ t.dirty = s.dirty := by
  have hf := exec_frame h
  cases i with
  | cls => exact absurd rfl hcls
  | drwVxVyN x y n => exact absurd rfl (hi x y n)
  | _ => exact ⟨(congrArg State.fb hf :), (congrArg State.dirty hf :)⟩

/-- The two instructions that write DIRTY set it (R96, R97). -/
theorem exec_dirty (h : exec i s = .next t) (hd : s.dirty = true) : t.dirty = true := by
  have hf := exec_frame h
  cases i with
  | cls | drwVxVyN => cases h; rfl
  | _ => exact (congrArg State.dirty hf :).trans hd

theorem State.indexAfterBlock_unchanged (x : Reg) (hq : s.cfg.qmemi = .unchanged) : s.indexAfterBlock x = s.i := by
  simp only [State.indexAfterBlock, hq]

theorem exec_i (h : exec i s = .next t) (hld : ∀ nnn, i ≠ .ldINnn nnn) (hi : ∀ x, i ≠ .addIVx x ∧ i ≠ .ldFVx x)
    (hblock : s.cfg.qmemi = .unchanged ∨ ∀ x, i ≠ .ldMemIVx x ∧ i ≠ .ldVxMemI x) : t.i = s.i := by
  have hf := exec_frame h
  cases i with
  | ldINnn nnn => exact absurd rfl (hld nnn)
  | addIVx x => exact absurd rfl (hi x).1
  | ldFVx x => exact absurd rfl (hi x).2
  | ldMemIVx x =>
    obtain hq | hx := hblock
    · cases h; exact State.indexAfterBlock_unchanged x hq
    · exact absurd rfl (hx x).1
  | ldVxMemI x =>
    obtain hq | hx := hblock
    · cases h; exact State.indexAfterBlock_unchanged x hq
    · exact absurd rfl (hx x).2
  | _ => exact (congrArg State.i hf :)

theorem exec_dt (h : exec i s = .next t) (hi : ∀ x, i ≠ .ldDtVx x) : t.dt = s.dt := by
  have hf := exec_frame h
  cases i with
  | ldDtVx x => exact absurd rfl (hi x)
  | _ => exact (congrArg State.dt hf :)

theorem exec_st (h : exec i s = .next t) (hi : ∀ x, i ≠ .ldStVx x) : t.st = s.st := by
  have hf := exec_frame h
  cases i with
  | ldStVx x => exact absurd rfl (hi x)
  | _ => exact (congrArg State.st hf :)

theorem exec_wait (h : exec i s = .next t) (hi : ∀ x, i ≠ .ldVxK x) : t.wait = s.wait := by
  have hf := exec_frame h
  cases i with
  | ldVxK x => exact absurd rfl (hi x)
  | _ => exact (congrArg State.wait hf :)

theorem exec_keys (h : exec i s = .next t) : t.keys = s.keys := by
  have hf := exec_frame h
  cases i <;> exact (congrArg State.keys hf :)

theorem exec_cfg (h : exec i s = .next t) : t.cfg = s.cfg := by
  have hf := exec_frame h
  cases i <;> exact (congrArg State.cfg hf :)

theorem exec_draw_count (h : exec i s = .next t) (hi : ∀ x kk, i ≠ .rndVxKk x kk) : t.draws = s.draws := by
  have hf := exec_frame h
  cases i with
  | rndVxKk x kk => exact absurd rfl (hi x kk)
  | _ => exact (congrArg State.draws hf :)

/-- An instruction that raises a fault, and Fx0A, leave PC (R61). -/
theorem exec_pc_of_halt (h : exec i s = .next t) (hi : (∃ x, i = .ldVxK x) ∨ t.fault ≠ s.fault) : t.pc = s.pc := by
  obtain ⟨x, rfl⟩ | hne := hi
  · exact (congrArg State.pc (exec_frame h) :)
  · obtain ⟨heq, -⟩ | ⟨_, _, rfl⟩ | ⟨_, _, _, rfl⟩ | ⟨_, _, _, rfl⟩ | ⟨_, _, rfl⟩ := exec_halt_cases h
    · exact absurd heq hne
    all_goals rfl

/-! ### Registers -/

theorem State.getV_writeResultAndFlag_ne {x r : Reg} (s : State) (res f : Byte) (hr : ¬ (r = x ∨ r = vf)) :
    (s.writeResultAndFlag x res f).getV r = s.getV r := by
  obtain ⟨-, hother, -⟩ := s.writeResultAndFlag_spec x res f
  exact hother r (fun hx => hr (.inl hx)) fun hv => hr (.inr hv)

theorem State.getV_writeLogic_ne {x r : Reg} (s : State) (res : Byte)
    (hr : ¬ (r = x ∨ (s.cfg.qlogic = .reset ∧ r = vf))) : (s.writeLogic x res).getV r = s.getV r := by
  obtain ⟨hpreserve, hreset⟩ := s.writeLogic_spec x res
  cases hq : s.cfg.qlogic with
  | preserve => rw [hpreserve hq, s.getV_setV_ne x res r fun hx => hr (.inl hx.symm)]
  | reset => rw [hreset hq, s.getV_writeResultAndFlag_ne res 0 fun h => hr (h.imp_right fun hv => ⟨hq, hv⟩)]

theorem State.getV_writeIndexFlag_ne {r : Reg} (s : State) (f : Byte) (hr : ¬ (s.cfg.qaddi = .overflow ∧ r = vf)) :
    (s.writeIndexFlag f).getV r = s.getV r := by
  obtain ⟨hunaffected, hoverflow⟩ := s.writeIndexFlag_spec f
  cases hq : s.cfg.qaddi with
  | unaffected => rw [hunaffected hq]
  | overflow => rw [hoverflow hq, s.getV_setV_ne vf f r fun hv => hr ⟨hq, hv.symm⟩]

/-- A register that the instruction neither names as destination nor uses as flag keeps its value. -/
theorem exec_getV (h : exec i s = .next t) (r : Reg) (hr : ¬ MayWriteReg s.cfg r i) : t.getV r = s.getV r := by
  have hf := exec_frame h
  cases i with
  | ldVxKk x _ | addVxKk x _ | ldVxVy x _ | rndVxKk x _ | ldVxDt x =>
    cases h; exact State.getV_setV_ne _ x _ r (Ne.symm hr)
  | orVxVy | andVxVy | xorVxVy => cases h; exact s.getV_writeLogic_ne _ hr
  | addVxVy | subVxVy | shrVxVy | subnVxVy | shlVxVy => cases h; exact s.getV_writeResultAndFlag_ne _ _ hr
  | drwVxVyN => cases h; exact State.getV_setV_ne _ vf _ r (Ne.symm hr)
  | addIVx => cases h; exact State.getV_writeIndexFlag_ne _ _ hr
  | ldVxMemI x =>
    cases h
    exact (s.loadRegs_getV _ r).trans (if_neg fun hmem => hr ((mem_regsUpTo x r).1 hmem))
  | _ => exact (congrArg (State.getV · r) hf :)

end Writers

/-- Settles O17: each clause is the field's own law, read off the frame of the instruction. -/
theorem eachFieldHasItsWriters : Obligations.EachFieldHasItsWriters := fun _ _ _ h =>
  ⟨exec_mem h, exec_getV h, exec_pc_of_halt h, exec_fault h, exec_sp_stack h, exec_fb_dirty h, exec_dirty h, exec_i h,
    exec_dt h, exec_st h, exec_wait h, exec_keys h, exec_cfg h, exec_draw_count h⟩

/-- Settles O18: a byte is a function of the memory and the parameters, and the instruction keeps both. -/
theorem onlyStoresWriteMemory : Obligations.OnlyStoresWriteMemory := by
  intro i s t h hi a
  rw [State.memRead, exec_mem h hi, exec_cfg h, State.memRead]

/-- Settles O19: VF, if it changed, is a register the instruction may write; the list is that of `MayWriteReg` at VF. -/
theorem vfChangesOnlyAsListed : Obligations.VfChangesOnlyAsListed := by
  intro i s t h hne
  have hw : MayWriteReg s.cfg vf i := by
    by_contra hw
    exact hne (exec_getV h vf hw)
  cases i with
  | orVxVy x y | andVxVy x y | xorVxVy x y =>
    obtain rfl | ⟨hq, -⟩ := hw
    · simp
    · simp [hq]
  | ldVxMemI x =>
    have hx : x = vf := Fin.le_antisymm (Fin.le_last x) hw
    simp [hx]
  | _ => simp_all [MayWriteReg]

/-! ### The step and its faults (40_execution_cycle.md section 1, 60_exceptions.md section 1) -/

/-- Settles O7: the fetch of R57 is the word whose decoding the step executes. -/
theorem stepRunsTheDecodedInstruction : Obligations.StepRunsTheDecodedInstruction := by
  intro s i hf hw hdec
  have hfetch : decode s.fetch = .known i := hdec
  rw [step_of_run hf hw, hfetch, execOperation]

theorem afterStep_of_next {s t : State} (h : step s = .next t) : s.afterStep = t := by
  simp only [State.afterStep, h]

theorem stepResult_of_next {s t : State} (h : step s = .next t) : s.stepResult = t.fault := by
  simp only [State.stepResult, h]

theorem afterStep_of_fault {s : State} {f : Fault} (hf : s.fault = some f) : s.afterStep = s := by
  simp only [State.afterStep, step_of_fault hf]

theorem stepResult_of_fault {s : State} {f : Fault} (hf : s.fault = some f) : s.stepResult = some f := by
  simp only [State.stepResult, step_of_fault hf]

/-- Settles O8: the first gate of R110. -/
theorem faultedStepReturnsTheFault : Obligations.FaultedStepReturnsTheFault := fun _ _ hf =>
  ⟨step_of_fault hf, afterStep_of_fault hf, stepResult_of_fault hf⟩

/-- Settles O10: an unknown word is raised by the cycle itself (R107), and the raised fault closes the first gate. -/
theorem unknownWordRaisesUnknownOpcode : Obligations.UnknownWordRaisesUnknownOpcode := by
  intro s w hf hw hdec
  have hfetch : decode s.fetch = .unknown w := hdec
  refine ⟨?_, step_of_fault rfl⟩
  rw [step_of_run hf hw, hfetch, execOperation]
  rfl

/-- Settles O13: the second gate answers a next state, and so does whatever is executed. -/
theorem unfaultedStepCompletes : Obligations.UnfaultedStepCompletes := by
  intro s hf
  cases hw : s.wait with
  | some x => exact ⟨s, step_of_wait hf hw⟩
  | none =>
    rw [step_of_run hf hw]
    cases decode s.fetch with
    | unknown w => exact ⟨_, rfl⟩
    | known i => exact exec_next i s

/-- A step that leaves a fault recorded raised it: it has a cause of R106, and nothing but FAULT changed (R109). -/
theorem step_raise {s t : State} {f : Fault} (h : step s = .next t) (hft : t.fault = some f) :
    t = s.raise f ∧ FaultCause f s := by
  obtain ⟨hfs, ⟨_, _, rfl⟩ | ⟨_, w, hdec, rfl⟩ | ⟨_, i, hdec, hexec⟩⟩ := step_cases h
  · rw [hfs] at hft; cases hft
  · cases hft; exact ⟨rfl, .inl ⟨w, hdec⟩⟩
  · obtain ⟨hsame, -⟩ | ⟨x, -, rfl⟩ | ⟨nnn, rfl, hq, rfl⟩ | ⟨nnn, rfl, hsp, rfl⟩ | ⟨rfl, hsp, rfl⟩ := exec_halt_cases hexec
    · rw [hsame, hfs] at hft; cases hft
    · rw [State.setWait_fault, hfs] at hft; cases hft
    · cases hft; exact ⟨rfl, .inr ⟨hq, nnn, hdec⟩⟩
    · cases hft; exact ⟨rfl, hsp, nnn, hdec⟩
    · cases hft; exact ⟨rfl, hsp, hdec⟩

/-- Settles O11: a raised fault is the only change (`step_raise`), and closes the first gate. -/
theorem faultEntryIsPrecise : Obligations.FaultEntryIsPrecise := by
  intro s t f _ h hft
  exact ⟨(step_raise h hft).1, (stepResult_of_next h).trans hft, step_of_fault hft⟩

/-- Each cause of R106 makes the step raise its fault. -/
theorem step_of_faultCause {s : State} {f : Fault} (hf : s.fault = none) (hw : s.wait = none) (hc : FaultCause f s) :
    step s = .next (s.raise f) := by
  rw [step_of_run hf hw]
  cases f with
  | unknownOpcode =>
    obtain ⟨w, hdec⟩ | ⟨hq, nnn, hdec⟩ := hc
    · rw [hdec]; rfl
    · rw [hdec]
      show execSys nnn s = _
      simp only [execSys, hq]
  | stackOverflow =>
    obtain ⟨hsp, nnn, hdec⟩ := hc
    rw [hdec]
    obtain ⟨-, hcall⟩ | ⟨hroom, -⟩ := execCall_cases nnn s
    · exact hcall
    · omega
  | stackUnderflow =>
    obtain ⟨hsp, hdec⟩ := hc
    rw [hdec]
    obtain ⟨-, hret⟩ | ⟨hne, -⟩ := execRet_cases s
    · exact hret
    · exact absurd hsp hne

/-- Settles O12: the causes are complete (`step_raise`), and each of them raises its fault (`step_of_faultCause`). -/
theorem faultsHaveExactlyTheseCauses : Obligations.FaultsHaveExactlyTheseCauses := by
  intro s f hf hw
  constructor
  · rintro ⟨t, h, hft⟩
    exact (step_raise h hft).2
  · intro hc
    exact ⟨s.raise f, step_of_faultCause hf hw hc, rfl⟩

/-! ### The invariant -/

/-- An instruction keeps the canonical form of memory: the two that write memory write it through masked addresses. -/
theorem exec_memWf {i : Instr} {s t : State} (h : exec i s = .next t) (hwf : Memory.wf s.cfg s.mem) :
    Memory.wf t.cfg t.mem := by
  cases i
  case ldBVx x =>
    cases h
    exact State.memWrite_wf _ (State.memWrite_wf _ (State.memWrite_wf s hwf _ _) _ _) _ _
  case ldMemIVx x => cases h; exact s.storeRegs_wf hwf _
  all_goals
    rw [exec_cfg h, exec_mem h fun _ => ⟨Instr.noConfusion, Instr.noConfusion⟩]
    exact hwf

/-- With neither a fault nor a wait there is nothing to say of PC. -/
theorem State.inv_of_running {s : State} (hwf : Memory.wf s.cfg s.mem) (hf : s.fault = none) (hw : s.wait = none) :
    s.Inv where
  memWf := hwf
  oneHalt := .inl hf
  waitAtKeyWait _ hx := by rw [hw] at hx; cases hx
  faultAtCause _ hx := by rw [hf] at hx; cases hx

/-- A fault is raised at its cause: raising it moves neither PC nor memory. -/
theorem State.inv_raise {s : State} {f : Fault} (hwf : Memory.wf s.cfg s.mem) (hw : s.wait = none)
    (hc : FaultCause f s) : (s.raise f).Inv where
  memWf := hwf
  oneHalt := .inr hw
  waitAtKeyWait _ hx := by rw [State.raise_eq, State.setFault_wait, hw] at hx; cases hx
  faultAtCause _ hx := by cases hx; cases f <;> exact hc

/-- A wait begins at its Fx0A: setting it moves neither PC nor memory. -/
theorem State.inv_setWait {s : State} {x : Reg} (hwf : Memory.wf s.cfg s.mem) (hf : s.fault = none)
    (hdec : decode s.fetch = .known (.ldVxK x)) : (s.setWait (some x)).Inv where
  memWf := hwf
  oneHalt := .inl hf
  waitAtKeyWait _ hx := by cases hx; exact hdec
  faultAtCause _ hx := by rw [State.setWait_fault, hf] at hx; cases hx

/-- Settles O14: a step leaves FAULT and WAIT clear, or it sets one of them at the instruction that explains it. -/
theorem stepKeepsInvariant : Obligations.StepKeepsInvariant := by
  intro s t hs h
  obtain ⟨hf, ⟨_, _, rfl⟩ | ⟨hw, w, hdec, rfl⟩ | ⟨hw, i, hdec, hexec⟩⟩ := step_cases h
  · exact hs
  · exact State.inv_raise hs.memWf hw (.inl ⟨w, hdec⟩)
  · obtain ⟨hft, hwt⟩ | ⟨x, rfl, rfl⟩ | ⟨nnn, rfl, hq, rfl⟩ | ⟨nnn, rfl, hsp, rfl⟩ | ⟨rfl, hsp, rfl⟩ := exec_halt_cases hexec
    · exact State.inv_of_running (exec_memWf hexec hs.memWf) (hft.trans hf) (hwt.trans hw)
    · exact State.inv_setWait hs.memWf hf hdec
    · exact State.inv_raise hs.memWf hw (.inr ⟨hq, nnn, hdec⟩)
    · exact State.inv_raise hs.memWf hw ⟨hsp, nnn, hdec⟩
    · exact State.inv_raise hs.memWf hw ⟨hsp, hdec⟩

/-- Settles O15: a machine without a cartridge runs from canonical memory. -/
theorem resetMeetsInvariant : Obligations.ResetMeetsInvariant :=
  State.inv_of_running (State.ofConfig_wf defaultConfig) rfl rfl

/-- The invariant speaks of the parameters, memory, PC, SP, WAIT and FAULT alone. -/
theorem State.Inv.of_frame {s t : State} (hs : s.Inv)
    (ht : t = { s with v := t.v, i := t.i, stack := t.stack, dt := t.dt, st := t.st, fb := t.fb, dirty := t.dirty,
                       keys := t.keys, draws := t.draws }) : t.Inv := by
  rw [ht]
  exact ⟨hs.memWf, hs.oneHalt, hs.waitAtKeyWait, hs.faultAtCause⟩

/-- The bytes of a cartridge that fits lie inside the address space. -/
theorem Memory.wf_load {c : Config} {bs : List Byte} {m : Memory} {a : Nat} (hwf : Memory.wf c m)
    (hfit : a + bs.length ≤ memSize) : Memory.wf c (Memory.load c m a bs) := by
  induction bs generalizing m a with
  | nil => exact hwf
  | cons b bs ih =>
    rw [List.length_cons] at hfit
    exact ih (Memory.wf_write hwf (by omega) b) (by omega)

/-- A step event leaves the machine as it was, or takes a step. -/
theorem afterStep_cases (s : State) : s.afterStep = s ∨ step s = .next s.afterStep := by
  cases hf : s.fault with
  | some f => exact .inl (afterStep_of_fault hf)
  | none =>
    obtain ⟨t, ht⟩ := unfaultedStepCompletes s hf
    rw [afterStep_of_next ht]
    exact .inr ht

/-- `key_down` sets the key, or, when the key was up and a wait pending, sets the key and resolves the wait (R118, R119). -/
theorem keyDown_cases (s : State) (k : Key) :
    ((s.getKey k = true ∨ s.wait = none) ∧ s.keyDown k = s.setKey k true) ∨
    ∃ x, s.getKey k = false ∧ s.wait = some x ∧
      s.keyDown k = (((s.setKey k true).setV x (BitVec.ofNat 8 k.val)).setWait none).advance := by
  unfold State.keyDown
  cases hk : s.getKey k with
  | true => exact .inl ⟨.inl rfl, rfl⟩
  | false =>
    cases hw : s.wait with
    | none => exact .inl ⟨.inr rfl, rfl⟩
    | some x => exact .inr ⟨x, rfl, rfl, rfl⟩

theorem keyDown_inv {s : State} (hs : s.Inv) (k : Key) : (s.keyDown k).Inv := by
  obtain ⟨-, h⟩ | ⟨x, -, hw, h⟩ := keyDown_cases s k <;> rw [h]
  · exact hs.of_frame rfl
  · have hf : s.fault = none := hs.oneHalt.resolve_right (by simp [hw])
    exact State.inv_of_running hs.memWf hf rfl

/-- Reset builds from a cartridge of at most `MAX_CART` bytes, and from no longer one (R124). -/
theorem construct_of_le {cart : List Byte} (c : Config) (h : cart.length ≤ maxCart) :
    State.construct c cart = some { State.ofConfig c with mem := Memory.load c [] programBase cart } :=
  if_pos h

theorem construct_of_gt {cart : List Byte} (c : Config) (h : maxCart < cart.length) : State.construct c cart = none :=
  if_neg (Nat.not_le.2 h)

theorem resetEvent_of_le {cart : List Byte} (c : Config) (h : cart.length ≤ maxCart) (s : State) :
    (Event.reset c cart).apply s =
      { State.ofConfig c with mem := Memory.load c [] programBase cart, draws := s.draws } := by
  simp only [Event.apply, construct_of_le c h]

theorem resetEvent_of_gt {cart : List Byte} (c : Config) (h : maxCart < cart.length) (s : State) :
    (Event.reset c cart).apply s = s := by
  simp only [Event.apply, construct_of_gt c h]

theorem resetEvent_inv {s : State} (hs : s.Inv) (c : Config) (cart : List Byte) : ((Event.reset c cart).apply s).Inv := by
  obtain hfit | hlong := le_or_gt cart.length maxCart
  · rw [resetEvent_of_le c hfit]
    have hsize : programBase + cart.length ≤ memSize := by
      simp only [programBase, memSize, maxCart] at *
      omega
    exact State.inv_of_running (Memory.wf_load (Memory.wf_nil c) hsize) rfl rfl
  · rw [resetEvent_of_gt c hlong]
    exact hs

/-- Settles O16: a step keeps it, reset builds it, a press ends the wait it speaks of, and no other event touches it. -/
theorem hostEventsKeepInvariant : Obligations.HostEventsKeepInvariant := by
  intro e s hs hadm
  cases e with
  | reset c cart => exact resetEvent_inv hs c cart
  | step =>
    obtain h | h := afterStep_cases s
    · show s.afterStep.Inv
      rwa [h]
    · exact stepKeepsInvariant s _ hs h
  | tick | keyUp | displayAck => exact hs.of_frame rfl
  | keyDown k => exact keyDown_inv hs k
  | restore snapshot => exact hadm.of_frame rfl

/-! ### The next PC (40_execution_cycle.md section 2) -/

/-- The advance of a state that is still at the instruction's PC. -/
theorem pcPlus_advance_of_pc {s u : State} (hpc : u.pc = s.pc) : PcPlus s u.advance 2 := by
  have h := u.pcPlus_advance
  rwa [PcPlus, hpc] at h

/-- Settles O20: a fault keeps PC (R109); every other instruction of the list ends in `advance` (R61). -/
theorem otherInstructionsAdvanceByTwo : Obligations.OtherInstructionsAdvanceByTwo := by
  intro i s t hf h
  refine ⟨fun hne => exec_pc_of_halt h (.inr (hf ▸ hne)), fun hft hret hjump hkk hxy hx => ?_⟩
  cases i with
  | ret => exact absurd rfl hret
  | jp nnn => exact absurd rfl (hjump nnn).1
  | call nnn => exact absurd rfl (hjump nnn).2.1
  | jpV0Nnn nnn => exact absurd rfl (hjump nnn).2.2
  | seVxKk x kk => exact absurd rfl (hkk x kk).1
  | sneVxKk x kk => exact absurd rfl (hkk x kk).2
  | seVxVy x y => exact absurd rfl (hxy x y).1
  | sneVxVy x y => exact absurd rfl (hxy x y).2
  | skpVx x => exact absurd rfl (hx x).1
  | sknpVx x => exact absurd rfl (hx x).2.1
  | ldVxK x => exact absurd rfl (hx x).2.2
  | sys nnn =>
    obtain ⟨-, e⟩ | ⟨-, e⟩ := execSys_cases nnn s <;> cases e.symm.trans h
    · exact s.pcPlus_advance
    · cases hft
  | orVxVy | andVxVy | xorVxVy => cases h; exact pcPlus_advance_of_pc (congrArg State.pc (s.writeLogic_fields _ _) :)
  | addVxVy | subVxVy | shrVxVy | subnVxVy | shlVxVy =>
    cases h; exact pcPlus_advance_of_pc (congrArg State.pc (s.writeResultAndFlag_fields _ _ _) :)
  | addIVx x => cases h; exact pcPlus_advance_of_pc (congrArg State.pc (State.writeIndexFlag_fields _ _) :)
  | ldMemIVx x => cases h; exact pcPlus_advance_of_pc (congrArg State.pc (s.storeRegs_fields _) :)
  | ldVxMemI x => cases h; exact pcPlus_advance_of_pc (congrArg State.pc (s.loadRegs_fields _) :)
  | cls | ldVxKk | addVxKk | ldVxVy | ldINnn | rndVxKk | drwVxVyN | ldVxDt | ldDtVx | ldStVx | ldFVx | ldBVx =>
    cases h; exact pcPlus_advance_of_pc rfl

/-! ### Calls and stored words -/

/-- Settles O33: the pushed entry is the one the return pops (R85, R86). -/
theorem returnUndoesCall : Obligations.ReturnUndoesCall := by
  intro nnn s t u hroom hcall hsp hstack
  obtain ⟨hfull, -⟩ | ⟨_, e⟩ := execCall_cases nnn s
  · omega
  cases e.symm.trans hcall
  obtain ⟨hempty, -⟩ | ⟨_, hret⟩ := execRet_cases u
  · rw [hsp] at hempty; cases hempty
  · refine ⟨_, hret, ?_, ?_⟩
    · have htop : u.stack[u.sp.val - 1] = s.pc + 2 := by simp [hsp, hstack]
      simp [PcPlus, htop, BitVec.toNat_add]
    · simp [hsp]

end Sys2Proof.Machine

namespace Sys2Proof.Machine

/-! ### Memory as data and as bytes (20_memory.md section 1) -/

/-- In a list with rising addresses, the entry of an address is the one that is read. -/
theorem Memory.read_of_mem {c : Config} {m : Memory} (hsorted : m.Pairwise (fun p q => p.1 < q.1)) {e : Host.Cell}
    (he : e ∈ m) : Memory.read c m e.1 = e.2 := by
  induction m with
  | nil => cases he
  | cons d rest ih =>
    obtain ⟨b, u⟩ := d
    obtain ⟨hlt, hrest⟩ := List.pairwise_cons.1 hsorted
    obtain rfl | he := List.mem_cons.1 he
    · exact if_pos rfl
    · exact (if_neg (hlt e he).ne).trans (ih hrest he)

/-- A byte that is not the initial one stands in the list. -/
theorem Memory.mem_of_read_ne {c : Config} {m : Memory} {a : Nat} (h : Memory.read c m a ≠ initialByte c a) :
    (a, Memory.read c m a) ∈ m := by
  induction m with
  | nil => exact absurd rfl h
  | cons d rest ih =>
    obtain ⟨b, u⟩ := d
    by_cases hb : b = a
    · simp [Memory.read, hb]
    · simp only [Memory.read, if_neg hb] at h ⊢
      exact List.mem_cons_of_mem _ (ih h)

/-- A canonical list holds exactly the bytes that differ from what construction put there. -/
theorem Memory.mem_iff_read {c : Config} {m : Memory} (hwf : Memory.wf c m) (e : Host.Cell) :
    e ∈ m ↔ e.1 < memSize ∧ Memory.read c m e.1 = e.2 ∧ e.2 ≠ initialByte c e.1 := by
  constructor
  · intro he
    obtain ⟨hlt, hne⟩ := hwf.2 _ he
    exact ⟨hlt, Memory.read_of_mem hwf.1 he, hne⟩
  · rintro ⟨-, hread, hne⟩
    have hmem := Memory.mem_of_read_ne (hread.trans_ne hne)
    rwa [hread] at hmem

/-- Settles O43: the bytes determine the entries (`Memory.mem_iff_read`), and rising addresses their order. -/
theorem canonicalMemoryIsExtensional : Obligations.CanonicalMemoryIsExtensional := by
  intro c m n hm hn hread
  have hirrefl : Std.Irrefl (fun p q : Host.Cell => p.1 < q.1) := ⟨fun p => Nat.lt_irrefl p.1⟩
  have hantisymm : Std.Antisymm (fun p q : Host.Cell => p.1 < q.1) := ⟨fun _ _ h h' => absurd h (Nat.lt_asymm h')⟩
  refine hm.1.eq_of_mem_iff hn.1 fun e => ?_
  rw [Memory.mem_iff_read hm, Memory.mem_iff_read hn]
  exact and_congr_right fun hlt => by rw [hread e.1 hlt]

/-! ### Stored words (20_memory.md section 5) -/

/-- Two bytes next to each other lie at different addresses, at 0xFFF too. -/
theorem mask12_add_one_ne (a : Word) : mask12 (a + 1#16) ≠ mask12 a := by
  have hnum : (a + 1#16).toNat = (a.toNat + 1) % 65536 := BitVec.toNat_add a 1#16
  rw [mask12_eq, mask12_eq, hnum]
  omega

theorem tableWord_toNat (w : Word) : tableWord 16 w.toNat = w := by
  apply BitVec.eq_of_toNat_eq
  simp [tableWord, Nat.mod_eq_of_lt w.isLt]

/-- The word placed where the machine fetches is the one it fetches. -/
theorem fetch_withFetchWord (s : State) (w : Word) : (s.withFetchWord 16 w.toNat).fetch = w := by
  have hhi : (s.withFetchWord 16 w.toNat).memRead s.pc = hiByte w := by
    simp [State.withFetchWord, State.memRead_memWrite, mask12_add_one_ne, tableWord_toNat]
  have hlo : (s.withFetchWord 16 w.toNat).memRead (s.pc + 1) = loByte w := by
    simp [State.withFetchWord, State.memRead_memWrite, tableWord_toNat]
  show wordOfBytes ((s.withFetchWord 16 w.toNat).memRead s.pc) ((s.withFetchWord 16 w.toNat).memRead (s.pc + 1)) = w
  rw [hhi, hlo, wordOfBytes_hi_lo]

/-- Settles O44: both gates let the step through, and the fetch reads back the two bytes just stored. -/
theorem storedWordIsExecutedNext : Obligations.StoredWordIsExecutedNext := by
  intro s w i hdec
  rw [step_of_run rfl rfl, fetch_withFetchWord, hdec, execOperation]

/-! ### The index register and block moves (44_memory_index.md) -/

/-- The value left in I (R91, R92), as a number. -/
theorem indexAfter_setI_advance {s u : State} (x : Reg) : IndexAfter s (u.setI (s.indexAfterBlock x)).advance x := by
  unfold IndexAfter
  cases hq : s.cfg.qmemi <;>
    simp [State.advance_eq, State.indexAfterBlock, State.effAddr, hq, BitVec.toNat_add, Nat.add_assoc]

/-- Settles O38: the block is written as `storeRegs` says, I as `QMEMI` says (R91). -/
theorem storeRegistersWritesTheBlock : Obligations.StoreRegistersWritesTheBlock := by
  intro x s
  have hfields := s.storeRegs_fields (regsUpTo x)
  refine ⟨decode_encode (i := .ldMemIVx x) rfl, _, rfl, fun k hk => ?_, fun a ha => ?_, indexAfter_setI_advance x, ?_,
    fun r _ => ?_, ?_⟩
  · exact s.storeRegs_read _ (nodup_regsUpTo x) k ((mem_regsUpTo x k).2 hk)
  · exact s.storeRegs_read_other _ a fun k hk => ha k ((mem_regsUpTo x k).1 hk)
  · exact pcPlus_advance_of_pc (congrArg State.pc hfields :)
  · exact (congrArg (State.getV · r) hfields :)
  · exact exec_frame (i := .ldMemIVx x) rfl

/-- Settles O39: the registers are read as `loadRegs` says, I as `QMEMI` says (R92). -/
theorem loadRegistersReadsTheBlock : Obligations.LoadRegistersReadsTheBlock := by
  intro x s
  have hfields := s.loadRegs_fields (regsUpTo x)
  refine ⟨decode_encode (i := .ldVxMemI x) rfl, _, rfl, fun k hk => ?_, fun r hr => ?_, indexAfter_setI_advance x, ?_,
    fun a => ?_, ?_⟩
  · exact (s.loadRegs_getV _ k).trans (if_pos ((mem_regsUpTo x k).2 hk))
  · exact exec_getV (i := .ldVxMemI x) rfl r hr
  · exact pcPlus_advance_of_pc (congrArg State.pc hfields :)
  · exact (congrArg (State.memRead · a) hfields :)
  · exact exec_frame (i := .ldVxMemI x) rfl

/-- Settles O40: the load reads, at the addresses of the store, the bytes that O38 says are there. -/
theorem loadReadsBackWhatStoreWrote : Obligations.LoadReadsBackWhatStoreWrote := by
  intro x s t u hstore hmem hcfg hi
  obtain ⟨-, t', ht', hread, -⟩ := storeRegistersWritesTheBlock x s
  cases ht'.symm.trans hstore
  obtain ⟨-, w, hw, hload, -⟩ := loadRegistersReadsTheBlock x u
  refine ⟨w, hw, fun k hk => ?_⟩
  calc w.getV k = u.memRead (u.effAddr k.val) := hload k hk
    _ = t.memRead (s.effAddr k.val) := by simp only [State.memRead, State.effAddr, hmem, hcfg, hi]
    _ = s.getV k := hread k hk

/-- A number below 256 is the number of its byte. -/
theorem toNat_byte_of_lt {n : Nat} (h : n < 256) : (BitVec.ofNat 8 n).toNat = n := Nat.mod_eq_of_lt h

/-- Settles O41: the three addresses differ, so each digit stays where it was written (R93). -/
theorem decimalDigitsAreStored : Obligations.DecimalDigitsAreStored := by
  intro x s
  have hne : ∀ {j k : Nat}, j < 3 → k < 3 → j ≠ k → mask12 (s.effAddr j) ≠ mask12 (s.effAddr k) := fun hj hk hjk h =>
    hjk (mask12_effAddr_inj s (by omega) (by omega) h)
  have h10 := hne (j := 1) (k := 0) (by decide) (by decide) (by decide)
  have h20 := hne (j := 2) (k := 0) (by decide) (by decide) (by decide)
  have h21 := hne (j := 2) (k := 1) (by decide) (by decide) (by decide)
  have hlt := (s.getV x).isLt
  refine ⟨decode_encode (i := .ldBVx x) rfl, _, rfl, ?_, ?_, ?_, fun a ha => ?_, pcPlus_advance_of_pc rfl,
    fun _ _ => rfl, rfl⟩
  all_goals rw [State.advance_eq, State.memRead_setPc, State.memRead_memWrite, State.memRead_memWrite, State.memRead_memWrite]
  · rw [if_neg h20, if_neg h10, if_pos rfl]
    exact toNat_byte_of_lt (by omega)
  · rw [if_neg h21, if_pos rfl]
    exact toNat_byte_of_lt (by omega)
  · rw [if_pos rfl]
    exact toNat_byte_of_lt (by omega)
  · rw [if_neg (ha 2 (by omega)), if_neg (ha 1 (by omega)), if_neg (ha 0 (by omega))]

/-- Settles O42: the low nibble is the value modulo 16, and a glyph lies below 2^16 for every `FONT_BASE` (R94). -/
theorem fontAddressPointsAtTheGlyph : Obligations.FontAddressPointsAtTheGlyph := by
  intro x s
  obtain ⟨hi, hframe⟩ := s.setI_advance_spec (fontAddr s.cfg (lowNibble (s.getV x)))
  refine ⟨decode_encode (i := .ldFVx x) rfl, _, rfl, ?_, hframe⟩
  have hnibble : (lowNibble (s.getV x)).val = (s.getV x).toNat % 16 := by
    simp [lowNibble]
  rw [hi, fontAddr, hnibble, BitVec.toNat_ofNat]
  have hbase := s.cfg.fontBase.isLt
  omega

/-- A flag as VF takes it, with its condition read as a proposition. -/
theorem flagByte_decide (p : Prop) [Decidable p] : flagByte (decide p) = if p then 1 else 0 := by
  simp [flagByte]

theorem indexOverflow_eq (i : Word) (b : Byte) : indexOverflow i b = if i.toNat + b.toNat > 0xFFF then 1 else 0 :=
  flagByte_decide (i.toNat + b.toNat > 0xFFF)

theorem State.getV_vf_writeIndexFlag (u : State) (f : Byte) (hq : u.cfg.qaddi = .overflow) :
    (u.writeIndexFlag f).getV vf = f := by
  rw [(u.writeIndexFlag_spec f).2 hq, State.getV_setV_self]

/-- Settles O37: I takes the sum of R90 in 16 bits, and the flag is written only under `QADDI = overflow`. -/
theorem addToIndexKeepsSixteenBits : Obligations.AddToIndexKeepsSixteenBits := by
  intro x s
  have hfields := (s.setI (s.i + (s.getV x).setWidth 16)).writeIndexFlag_fields (indexOverflow s.i (s.getV x))
  have hsum : (s.i + (s.getV x).setWidth 16).toNat = (s.i.toNat + (s.getV x).toNat) % 65536 := by
    simp [BitVec.toNat_add]
  refine ⟨decode_encode (i := .addIVx x) rfl, _, rfl, ?_, pcPlus_advance_of_pc (congrArg State.pc hfields :),
    fun hq r _ => ?_, fun hq => ⟨fun r hr => ?_, ?_⟩, fun a => (congrArg (State.memRead · a) hfields :),
    exec_frame (i := .addIVx x) rfl⟩
  · exact (congrArg (fun t : State => t.i.toNat) hfields :).trans hsum
  · exact exec_getV (i := .addIVx x) rfl r fun ⟨h, _⟩ => by rw [hq] at h; cases h
  · exact exec_getV (i := .addIVx x) rfl r fun ⟨_, h⟩ => hr h
  · exact ((s.setI (s.i + (s.getV x).setWidth 16)).getV_vf_writeIndexFlag _ hq).trans
      (indexOverflow_eq s.i (s.getV x))

end Sys2Proof.Machine

namespace Sys2Proof.Machine

/-! ### Register arithmetic (41_alu.md) -/

/-- What an instruction that writes a result and a flag does, from the write it makes (R64). -/
theorem State.flagEffect_advance (s : State) (x : Reg) (res f : Byte) :
    FlagEffect s (s.writeResultAndFlag x res f).advance x res f := by
  obtain ⟨hres, -, hfields⟩ := s.writeResultAndFlag_spec x res f
  have hregs : SameRegs s (s.writeResultAndFlag x res f).advance (fun r => r = x ∨ r = vf) := fun _ hr =>
    s.getV_writeResultAndFlag_ne res f hr
  refine ⟨hres, pcPlus_advance_of_pc (congrArg State.pc hfields :), hregs, fun a => ?_, ?_⟩
  · exact (congrArg (State.memRead · a) hfields :)
  · rw [hfields]
    rfl

/-- What a logic instruction does (R67). -/
theorem State.logicEffect_advance (s : State) (x : Reg) (res : Byte) :
    LogicEffect s (s.writeLogic x res).advance x res := by
  obtain ⟨hpreserve, hreset⟩ := s.writeLogic_spec x res
  unfold LogicEffect
  cases hq : s.cfg.qlogic with
  | preserve => rw [hpreserve hq]; exact s.setV_advance_spec x res
  | reset => rw [hreset hq]; exact s.flagEffect_advance x res 0

/-- Settles O22: 7xkk is the register load of the sum (R69). -/
theorem addImmediateWritesNoFlag : Obligations.AddImmediateWritesNoFlag := by
  intro x kk s
  obtain ⟨hval, hframe⟩ := s.setV_advance_spec x (s.getV x + kk)
  exact ⟨decode_encode (i := .addVxKk x kk) rfl, _, rfl, (congrArg BitVec.toNat hval).trans (BitVec.toNat_add _ _), hframe⟩

/-- Settles O24: the three are one logic write each (R71 to R73). -/
theorem logicInstructionsCombineBitwise : Obligations.LogicInstructionsCombineBitwise := by
  intro x y s
  exact ⟨⟨decode_encode (i := .orVxVy x y) rfl, _, rfl, s.logicEffect_advance x _⟩,
    ⟨decode_encode (i := .andVxVy x y) rfl, _, rfl, s.logicEffect_advance x _⟩,
    decode_encode (i := .xorVxVy x y) rfl, _, rfl, s.logicEffect_advance x _⟩

theorem carryFlag_eq (a b : Byte) : carryFlag a b = if a.toNat + b.toNat > 0xFF then 1 else 0 :=
  flagByte_decide (a.toNat + b.toNat > 0xFF)

theorem noBorrow_eq (c : Config) (a b : Byte) : noBorrow c a b = NoBorrowFlag c a b := by
  unfold noBorrow NoBorrowFlag
  cases c.qborrow with
  | ge => exact flagByte_decide (a.toNat ≥ b.toNat)
  | gt => exact flagByte_decide (a.toNat > b.toNat)

theorem byte_add_eq (a b : Byte) : a + b = BitVec.ofNat 8 (a.toNat + b.toNat) := by
  apply BitVec.eq_of_toNat_eq
  simp [BitVec.toNat_add]

theorem byte_sub_eq (a b : Byte) : a - b = BitVec.ofNat 8 (a.toNat + 256 - b.toNat) := by
  apply BitVec.eq_of_toNat_eq
  have hb := b.isLt
  simp only [BitVec.toNat_sub, BitVec.toNat_ofNat]
  congr 1
  omega

/-- Settles O25: the sum and its carry are one result and flag write (R74). -/
theorem addRegistersSetsCarry : Obligations.AddRegistersSetsCarry := by
  intro x y s
  rw [← byte_add_eq, ← carryFlag_eq]
  exact ⟨decode_encode (i := .addVxVy x y) rfl, _, rfl, s.flagEffect_advance x _ _⟩

/-- Settles O26: the difference and its no-borrow flag are one result and flag write, operands swapped in 8xy7 (R75, R77). -/
theorem subtractionsSetNoBorrow : Obligations.SubtractionsSetNoBorrow := by
  intro x y s
  rw [← byte_sub_eq, ← byte_sub_eq, ← noBorrow_eq, ← noBorrow_eq]
  exact ⟨⟨decode_encode (i := .subVxVy x y) rfl, _, rfl, s.flagEffect_advance x _ _⟩,
    decode_encode (i := .subnVxVy x y) rfl, _, rfl, s.flagEffect_advance x _ _⟩

theorem State.shiftSrc_eq (s : State) (x y : Reg) : s.shiftSrc x y = ShiftSource s x y := by
  unfold State.shiftSrc ShiftSource
  cases s.cfg.qshift <;> rfl

theorem shiftRight_one_eq (b : Byte) : b >>> 1 = BitVec.ofNat 8 (b.toNat / 2) := by
  apply BitVec.eq_of_toNat_eq
  have hb := b.isLt
  simp [BitVec.toNat_ushiftRight, Nat.shiftRight_eq_div_pow]
  omega

theorem shiftLeft_one_eq (b : Byte) : b <<< 1 = BitVec.ofNat 8 (b.toNat * 2) := by
  apply BitVec.eq_of_toNat_eq
  simp [BitVec.toNat_shiftLeft, Nat.shiftLeft_eq]

theorem shiftOutRight_eq (b : Byte) : shiftOutRight b = BitVec.ofNat 8 (b.toNat % 2) := by
  revert b; decide

theorem shiftOutLeft_eq (b : Byte) : shiftOutLeft b = BitVec.ofNat 8 (b.toNat / 128) := by
  revert b; decide

/-- Settles O27: the shifted source and the bit shifted out are one result and flag write (R76, R78). -/
theorem shiftsSetShiftedOutBit : Obligations.ShiftsSetShiftedOutBit := by
  intro x y s
  rw [← State.shiftSrc_eq, ← shiftRight_one_eq, ← shiftLeft_one_eq, ← shiftOutRight_eq, ← shiftOutLeft_eq]
  exact ⟨⟨decode_encode (i := .shrVxVy x y) rfl, _, rfl, s.flagEffect_advance x _ _⟩,
    decode_encode (i := .shlVxVy x y) rfl, _, rfl, s.flagEffect_advance x _ _⟩

/-! ### Skips, jumps and SYS (42_skips.md, 43_control.md) -/

/-- The rows of 5xy0 and 9xy0 have no other minor nibble (R51). -/
theorem decode_unknown_of_minor {op : BitVec 4} (hop : op = 0x5#4 ∨ op = 0x9#4) (x y : Reg) {n : BitVec 4}
    (hn : n ≠ 0#4) : ∃ w, decode (formatFXYN op x y n) = .unknown w := by
  obtain rfl | rfl := hop <;> simp [decode, hn]

/-- Settles O29: the two skips on registers, and the low nibbles that are no instruction. -/
theorem skipsOnRegisters : Obligations.SkipsOnRegisters := by
  intro x y s
  have hse := s.skipIf_spec (s.getV x == s.getV y)
  have hsne := s.skipIf_spec (s.getV x != s.getV y)
  simp only [beq_iff_eq] at hse
  simp only [bne_iff_ne, ne_eq, ite_not] at hsne
  exact ⟨⟨decode_encode (i := .seVxVy x y) rfl, _, rfl, hse⟩, ⟨decode_encode (i := .sneVxVy x y) rfl, _, rfl, hsne⟩,
    fun n hn => ⟨decode_unknown_of_minor (.inl rfl) x y hn, decode_unknown_of_minor (.inr rfl) x y hn⟩⟩

/-- An address plus a byte stays below 2^16: the sum of Bnnn is exact. -/
theorem toNat_addr_add_byte (nnn : Addr) (b : Byte) :
    (nnn.setWidth 16 + b.setWidth 16).toNat = nnn.toNat + b.toNat := by
  have hn := nnn.isLt
  have hb := b.isLt
  simp [BitVec.toNat_add]
  omega

theorem jumpReg_vx_eq (nnn : Addr) : (nnn.extractLsb' 8 4).toFin = Fin.ofNat 16 (nnn.toNat / 256) := by
  apply Fin.ext
  simp [Nat.shiftRight_eq_div_pow]

/-- Settles O34: the offset register is the one `QJUMP` chooses (R87). -/
theorem jumpPlusRegisterSetsPc : Obligations.JumpPlusRegisterSetsPc := by
  intro nnn s
  have hpc := toNat_addr_add_byte nnn (s.getV (s.jumpReg nnn))
  refine ⟨decode_encode (i := .jpV0Nnn nnn) rfl, _, rfl, s.onlyPc_setPc _, fun hq => hpc.trans ?_, fun hq => hpc.trans ?_⟩
  · simp only [State.jumpReg, hq]
  · simp only [State.jumpReg, hq, jumpReg_vx_eq]

/-- Settles O35: `QSYS` chooses between the advance and the raise (R88). -/
theorem sysAdvancesOrFaults : Obligations.SysAdvancesOrFaults := by
  intro nnn s
  refine ⟨fun hcls hret => decode_encode (i := .sys nnn) ((wellFormed_sys_iff nnn).2 ⟨hcls, hret⟩), fun hq => ?_, fun hq => ?_⟩
  · refine ⟨s.advance, ?_, s.pcPlus_advance, s.onlyPc_setPc _⟩
    simp only [exec, execSys, hq]
  · simp only [exec, execSys, hq]
    rfl

/-! ### Keys and random bytes (46_keys_timers_random.md) -/

theorem lowNibble_eq (b : Byte) : lowNibble b = Fin.ofNat 16 b.toNat := by
  apply Fin.ext
  simp [lowNibble]

/-- Settles O48: the two skips on the level of the key that the low nibble names (R99, R100). -/
theorem keySkipsTestTheKeyLevel : Obligations.KeySkipsTestTheKeyLevel := by
  intro x s
  have hskp := s.skipIf_spec (s.getKey (lowNibble (s.getV x)))
  have hsknp := s.skipIf_spec (!s.getKey (lowNibble (s.getV x)))
  rw [← lowNibble_eq]
  simp only [Bool.not_eq_true', ← Bool.not_eq_true, ite_not] at hsknp
  exact ⟨⟨decode_encode (i := .skpVx x) rfl, _, rfl, hskp⟩, decode_encode (i := .sknpVx x) rfl, _, rfl, hsknp⟩

/-- Settles O49: the wait closes the second gate (R56, R101). -/
theorem keyWaitSuspends : Obligations.KeyWaitSuspends := by
  intro x s
  exact ⟨decode_encode (i := .ldVxK x) rfl, _, rfl, rfl, fun _ => rfl, fun hf => step_of_wait hf rfl⟩

/-- Settles O52: Cxkk is the register load of the masked draw, with the draw counted (R105). -/
theorem randomByteIsMasked : Obligations.RandomByteIsMasked := by
  intro x kk s
  obtain ⟨hval, hpc, hregs, hmem, -⟩ := s.countDraw.setV_advance_spec x (Config.freeByte s.draws &&& kk)
  refine ⟨decode_encode (i := .rndVxKk x kk) rfl, _, rfl, hval, fun j hj => ?_, rfl, hpc, hregs, hmem, rfl⟩
  exact (congrArg (BitVec.getLsbD · j) hval).trans (by simp [hj])

end Sys2Proof.Machine

namespace Sys2Proof.Machine

/-! ### The framebuffer (45_display.md) -/

/-- What a draw does to the framebuffer and what it reports, in the terms of R96. -/
theorem State.drawPixels_sprite (s : State) (f : Frame) (px py : Nat) (n : Fin 16) :
    (∀ X Y, SpriteLit s px py n.val X Y →
      Frame.pixel (drawPixels f (s.spritePixels px py n.val)).1 X Y = !Frame.pixel f X Y) ∧
    (∀ X Y, ¬ SpriteLit s px py n.val X Y →
      Frame.pixel (drawPixels f (s.spritePixels px py n.val)).1 X Y = Frame.pixel f X Y) ∧
    ((drawPixels f (s.spritePixels px py n.val)).2 = true ↔
      ∃ X Y, SpriteLit s px py n.val X Y ∧ Frame.pixel f X Y = true) := by
  obtain ⟨hpixel, hhit⟩ := drawPixels_spec f _ (s.nodup_spritePixels px py n.val (by omega))
  refine ⟨fun X Y hlit => ?_, fun X Y hlit => ?_, ?_⟩
  · rw [hpixel, decide_eq_true ((s.mem_spritePixels px py n.val X Y).2 hlit), Bool.xor_true]
  · rw [hpixel, decide_eq_false (mt (s.mem_spritePixels px py n.val X Y).1 hlit), Bool.xor_false]
  · simp only [hhit, List.any_eq_true, Prod.exists, s.mem_spritePixels]

/-- Settles O45: the sprite is drawn pixel by pixel without repeats, so the frame and the flag are those of R96. -/
theorem drawFlipsExactlyTheLitPixels : Obligations.DrawFlipsExactlyTheLitPixels := by
  intro x y n s
  obtain ⟨hlit, hdark, hhit⟩ := s.drawPixels_sprite s.fb (s.getV x).toNat (s.getV y).toNat n
  refine ⟨decode_encode (i := .drwVxVyN x y n) rfl, _, rfl, hlit, hdark, fun h => ?_, fun h => ?_, rfl,
    pcPlus_advance_of_pc rfl, exec_getV (i := .drwVxVyN x y n) rfl, fun _ => rfl, rfl⟩
  · exact (State.getV_setV_self _ vf _).trans (by rw [hhit.2 h]; rfl)
  · exact (State.getV_setV_self _ vf _).trans (by rw [Bool.eq_false_iff.2 (mt hhit.1 h)]; rfl)

/-- Settles O46: the second draw has the same sprite at the same place, and flips each of its pixels back. -/
theorem drawingTwiceRestoresTheFrame : Obligations.DrawingTwiceRestoresTheFrame := by
  intro x y n s t u hx hy h1 h2
  obtain ⟨-, t', ht', hlit1, hdark1, -, -, -, -, hregs1, -, hframe1⟩ := drawFlipsExactlyTheLitPixels x y n s
  cases ht'.symm.trans h1
  obtain ⟨-, u', hu', hlit2, hdark2, hhit, hmiss, -⟩ := drawFlipsExactlyTheLitPixels x y n t
  cases hu'.symm.trans h2
  have hsame : SpriteLit t (t.getV x).toNat (t.getV y).toNat n.val = SpriteLit s (s.getV x).toNat (s.getV y).toNat n.val := by
    rw [hregs1 x hx, hregs1 y hy, hframe1]
    rfl
  rw [hsame] at hlit2 hdark2 hhit hmiss
  constructor
  · refine Frame.ext_pixel fun X Y => ?_
    by_cases hl : SpriteLit s (s.getV x).toNat (s.getV y).toNat n.val X Y
    · rw [hlit2 X Y hl, hlit1 X Y hl, Bool.not_not]
    · rw [hdark2 X Y hl, hdark1 X Y hl]
  · have hiff : FrameHit t (SpriteLit s (s.getV x).toNat (s.getV y).toNat n.val) ↔
        ∃ X Y, SpriteLit s (s.getV x).toNat (s.getV y).toNat n.val X Y ∧ Frame.pixel s.fb X Y = false := by
      refine exists_congr fun X => exists_congr fun Y => and_congr_right fun hl => ?_
      rw [hlit1 X Y hl, Bool.not_eq_true']
    rw [← hiff]
    refine ⟨fun hvf => ?_, hhit⟩
    by_contra hno
    rw [hmiss hno] at hvf
    cases hvf

/-- Settles O47: the blank frame has no pixel set (R97). -/
theorem clearBlanksTheFrame : Obligations.ClearBlanksTheFrame :=
  ⟨decode_encode (i := .cls) rfl, fun _ => ⟨_, rfl, Frame.pixel_blank, rfl, pcPlus_advance_of_pc rfl, fun _ _ => rfl,
    fun _ => rfl, rfl⟩⟩

/-! ### Host events (60_exceptions.md sections 4 to 8) -/

@[simp] theorem runEvents_nil (s : State) : runEvents [] s = s := rfl

@[simp] theorem runEvents_cons (e : Event) (es : List Event) (s : State) :
    runEvents (e :: es) s = runEvents es (e.apply s) := rfl

theorem toNat_countDown (b : Byte) : (countDown b).toNat = b.toNat - 1 := by
  revert b; decide

/-- Settles O53: each tick takes one from each timer (R117), and changes nothing else. -/
theorem ticksCountTheTimersDown : Obligations.TicksCountTheTimersDown := by
  intro n
  induction n with
  | zero => exact fun s => ⟨rfl, rfl, rfl⟩
  | succ n ih =>
    intro s
    obtain ⟨hdt, hst, hframe⟩ := ih s.tick
    refine ⟨hdt.trans ?_, hst.trans ?_, hframe⟩
    · show (countDown s.dt).toNat - n = s.dt.toNat - (n + 1)
      rw [toNat_countDown, Nat.sub_sub, Nat.add_comm]
    · show (countDown s.st).toNat - n = s.st.toNat - (n + 1)
      rw [toNat_countDown, Nat.sub_sub, Nat.add_comm]

/-- Settles O54: the press of R119, its number read back from a byte. -/
theorem keyPressResolvesTheWait : Obligations.KeyPressResolvesTheWait := by
  intro s x k hw hk
  obtain ⟨h | h, -⟩ | ⟨x', -, hw', h⟩ := keyDown_cases s k
  · rw [hk] at h; cases h
  · rw [hw] at h; cases h
  · cases hw.symm.trans hw'
    have hkeys : ∀ j, (s.keyDown k).getKey j = if k = j then true else s.getKey j := by
      rw [h]; exact s.getKey_setKey k true
    refine ⟨by simp [hkeys], fun j hj => by simp [hkeys, hj.symm], ?_⟩
    rw [h]
    refine ⟨?_, rfl, pcPlus_advance_of_pc rfl, fun r hr => State.getV_setV_ne _ x _ r (Ne.symm hr), fun _ => rfl, rfl⟩
    exact (congrArg BitVec.toNat (State.getV_setV_self _ x _)).trans (toNat_byte_of_lt (by omega))

/-- A key already at a level is not changed by setting it to that level. -/
theorem State.setKey_getKey (s : State) {k : Key} {p : Bool} (hk : s.getKey k = p) : s.setKey k p = s := by
  have hkeys : s.keys.set k p = s.keys := by
    rw [← hk]
    exact Vector.set_getElem_self k.isLt
  show { s with keys := s.keys.set k p } = s
  rw [hkeys]

theorem keyDown_of_no_wait {s : State} (hw : s.wait = none) (k : Key) : s.keyDown k = s.setKey k true := by
  obtain ⟨-, h⟩ | ⟨x, -, hx, -⟩ := keyDown_cases s k
  · exact h
  · rw [hw] at hx; cases hx

/-- Settles O55: with no wait to resolve, a press is the write of one key (R118). -/
theorem otherHostEventsMoveOneThing : Obligations.OtherHostEventsMoveOneThing := by
  intro s k
  have hset : ∀ (p : Bool) (j : Key), (s.setKey k p).getKey j = if j = k then p else s.getKey j := fun p j => by
    simp only [s.getKey_setKey, eq_comm]
  refine ⟨fun hw => ?_, fun hk => ?_, ⟨rfl, hset false⟩, rfl, by simp [State.audioRequest]⟩
  · rw [keyDown_of_no_wait hw k]
    exact ⟨rfl, hset true⟩
  · obtain ⟨-, h⟩ | ⟨x, hk', -, -⟩ := keyDown_cases s k
    · rw [h, s.setKey_getKey hk]
    · rw [hk] at hk'; cases hk'

end Sys2Proof.Machine

namespace Sys2Proof.Machine

/-! ### Halted machines (60_exceptions.md section 8) -/

/-- `t` differs from `s` at most in what the host may change of a halted machine: the timers, DIRTY and the keys. -/
def HostFrame (s t : State) : Prop :=
  t = { s with dt := t.dt, st := t.st, dirty := t.dirty, keys := t.keys }

theorem HostFrame.of_eq {s t : State} (h : t = s) : HostFrame s t := h ▸ rfl

theorem HostFrame.trans {s t u : State} (h1 : HostFrame s t) (h2 : HostFrame t u) : HostFrame s u := by
  unfold HostFrame at *
  rw [h2, h1]

theorem HostFrame.fault_wait {s t : State} (h : HostFrame s t) : t.fault = s.fault ∧ t.wait = s.wait :=
  ⟨(congrArg State.fault h :), (congrArg State.wait h :)⟩

/-- If each of the events moves no more than that of a machine halted like `s`, then so do all of them one after another. -/
theorem runEvents_hostFrame {es : List Event} {s : State}
    (h : ∀ e ∈ es, ∀ u : State, u.fault = s.fault → u.wait = s.wait → HostFrame u (e.apply u)) :
    HostFrame s (runEvents es s) := by
  induction es generalizing s with
  | nil => rfl
  | cons e es ih =>
    have hfirst : HostFrame s (e.apply s) := h e List.mem_cons_self s rfl rfl
    obtain ⟨hf, hw⟩ := hfirst.fault_wait
    refine hfirst.trans (ih fun e' he' u huf huw => ?_)
    exact h e' (List.mem_cons_of_mem e he') u (huf.trans hf) (huw.trans hw)

/-- Settles O57: a step of the waiting machine is a no-op (R56), and of the other events none resolves the wait. -/
theorem keyWaitLastsUntilAPress : Obligations.KeyWaitLastsUntilAPress := by
  intro es s x hf hw hes
  refine runEvents_hostFrame fun e he u huf huw => ?_
  obtain rfl | rfl | rfl | ⟨k, rfl⟩ := hes e he
  · have hstep : step u = .next u := step_of_wait (huf.trans hf) (huw.trans hw)
    exact .of_eq (afterStep_of_next hstep)
  all_goals rfl

/-- Settles O58: a step of the faulted machine is not taken (R55), and without a wait a press is the write of one key. -/
theorem faultLastsUntilReset : Obligations.FaultLastsUntilReset := by
  intro es s f hf hw hes
  have hframe : HostFrame s (runEvents es s) := by
    refine runEvents_hostFrame fun e he u huf huw => ?_
    obtain ⟨hreset, hrestore⟩ := hes e he
    cases e with
    | reset c cart => exact absurd rfl (hreset c cart)
    | restore snapshot => exact absurd rfl (hrestore snapshot)
    | step => exact .of_eq (afterStep_of_fault (huf.trans hf))
    | keyDown k =>
      show HostFrame u (u.keyDown k)
      rw [keyDown_of_no_wait (huw.trans hw)]
      rfl
    | tick | keyUp | displayAck => rfl
  exact ⟨step_of_fault (hframe.fault_wait.1.trans hf), hframe⟩

/-! ### The debug gate (60_exceptions.md section 7) -/

/-- A breakpoint set at the masked PC hits, and neither starts nor stops the controller. -/
theorem setBreakpoint_at_pc (d : Debugger) (s : State) :
    ∃ d', d.setBreakpoint (s.pc.toNat % 4096) = some d' ∧ d'.mode = d.mode ∧ d'.resuming = d.resuming ∧
      d'.hits s = true := by
  have hlt : s.pc.toNat % 4096 < 4096 := Nat.mod_lt _ (by decide)
  exact ⟨_, dif_pos hlt, rfl, rfl, by simp [Debugger.hits, mask12_eq]⟩

theorem gatedStep_of_hit {d : Debugger} {s : State} (hrun : d.mode = .running) (hresume : d.resuming = false)
    (hhit : d.hits s = true) : d.gatedStep s = ({ d with mode := .paused }, s) := by
  simp [Debugger.gatedStep, hrun, hresume, hhit]

theorem continueRun_of_paused {d : Debugger} (h : d.mode = .paused) :
    d.continueRun = { d with mode := .running, resuming := true } := by
  simp only [Debugger.continueRun, h]

theorem gatedStep_of_resuming {d : Debugger} {s : State} (hrun : d.mode = .running) (hresume : d.resuming = true) :
    d.gatedStep s = ({ d with resuming := false }, s.afterStep) := by
  simp [Debugger.gatedStep, hrun, hresume]

/-- Settles O59: the breakpoint just set is the first of the list and hits; resuming skips the check once (R122). -/
theorem breakpointPausesBeforeExecution : Obligations.BreakpointPausesBeforeExecution := by
  refine ⟨fun d a ha => dif_neg (by omega), fun d s hrun hresume => ?_⟩
  obtain ⟨d', hset, hmode, hflag, hhit⟩ := setBreakpoint_at_pc d s
  have hpause := gatedStep_of_hit (hmode.trans hrun) (hflag.trans hresume) hhit
  refine ⟨d', hset, ?_⟩
  rw [hpause, continueRun_of_paused rfl, gatedStep_of_resuming rfl rfl]
  exact ⟨rfl, rfl, rfl, rfl⟩

/-! ### Reset (70_reset_and_hazards.md section 1, 20_memory.md section 4) -/

/-- A loaded block reads back, and every byte outside it is as before. -/
theorem Memory.read_load (c : Config) (bs : List Byte) (m : Memory) (a x : Nat) :
    Memory.read c (Memory.load c m a bs) x =
      if a ≤ x ∧ x < a + bs.length then bs.getD (x - a) 0 else Memory.read c m x := by
  induction bs generalizing m a with
  | nil => exact (if_neg (by simp)).symm
  | cons b bs ih =>
    rw [Memory.load, ih, Memory.read_write, List.length_cons]
    obtain hx | hx | hx := Nat.lt_trichotomy x a
    · rw [if_neg (by omega), if_neg (by omega), if_neg (by omega)]
    · subst hx
      simp
    · have hsub : x - a = x - (a + 1) + 1 := by omega
      simp only [hx.ne, if_false, hsub, List.getD_cons_succ]
      exact if_congr (by omega) rfl rfl

theorem initialByte_eq (c : Config) (a : Nat) :
    initialByte c a =
      if c.fontBase.val ≤ a ∧ a < c.fontBase.val + 80 then c.fontData.toList.getD (a - c.fontBase.val) 0 else 0 := by
  unfold initialByte
  split
  · next h =>
    have hlt : a - c.fontBase.val < 80 := by omega
    simp [List.getD_eq_getElem?_getD, hlt]
  · rfl

/-- Settles O56: the machine is `ofConfig` with the cartridge loaded; the memory is the block read back (R31, R40, R124). -/
theorem resetBuildsTheMachine : Obligations.ResetBuildsTheMachine := by
  refine ⟨fun c cart hfit => ?_, fun c cart hlong => ?_, rfl⟩
  · refine ⟨_, construct_of_le c hfit, resetEvent_of_le c hfit, fun a ha => ?_, fun r => ?_, rfl, rfl, rfl, fun k => ?_,
      rfl, rfl, fun X Y => ?_, rfl, fun k => ?_, rfl, rfl, rfl⟩
    · have haddr : mask12 a = a.toNat := (mask12_eq a).trans (Nat.mod_eq_of_lt ha)
      rw [← initialByte_eq, ← haddr]
      exact Memory.read_load c cart [] programBase (mask12 a)
    · simp [State.getV, State.ofConfig]
    · simp [State.ofConfig]
    · simp [Frame.pixel, State.ofConfig]
    · simp [State.getKey, State.ofConfig]
  · exact ⟨construct_of_gt c hlong, resetEvent_of_gt c hlong⟩

/-! ### Restore (70_reset_and_hazards.md section 1): nothing but Cxkk looks at the draw count -/

/-- The machine with another draw count, as a reset or a restore leaves it. -/
def State.withDraws (s : State) (d : Nat) : State := { s with draws := d }

/-- A step that fetches no Cxkk does not look at the draw count, and leaves it. -/
theorem step_withDraws {s t : State} (d : Nat) (hrnd : ∀ x kk, decode s.fetch ≠ .known (.rndVxKk x kk))
    (h : step s = .next t) : step (s.withDraws d) = .next (t.withDraws d) := by
  obtain ⟨hf, ⟨x, hw, rfl⟩ | ⟨hw, w, hdec, rfl⟩ | ⟨hw, i, hdec, hexec⟩⟩ := step_cases h
  · exact step_of_wait (x := x) hf hw
  · have hfetch : decode (s.withDraws d).fetch = .unknown w := hdec
    rw [step_of_run (s := s.withDraws d) hf hw, hfetch]
    rfl
  · have hfetch : decode (s.withDraws d).fetch = .known i := hdec
    rw [step_of_run (s := s.withDraws d) hf hw, hfetch]
    exact exec_draws (fun x kk hi => hrnd x kk (hi ▸ hdec)) d hexec

theorem afterStep_withDraws (s : State) (d : Nat) (hrnd : ∀ x kk, decode s.fetch ≠ .known (.rndVxKk x kk)) :
    (s.withDraws d).afterStep = s.afterStep.withDraws d := by
  cases hf : s.fault with
  | some f => rw [afterStep_of_fault hf, afterStep_of_fault (s := s.withDraws d) hf]
  | none =>
    obtain ⟨t, ht⟩ := unfaultedStepCompletes s hf
    rw [afterStep_of_next ht, afterStep_of_next (step_withDraws d hrnd ht)]

/-- What a step of an unfaulted machine reports, by the causes of R106. -/
theorem stepResult_eq_some_iff {s : State} {f : Fault} (hf : s.fault = none) :
    s.stepResult = some f ↔ s.wait = none ∧ FaultCause f s := by
  cases hw : s.wait with
  | some x => simp [stepResult_of_next (step_of_wait hf hw), hf]
  | none =>
    obtain ⟨t, ht⟩ := unfaultedStepCompletes s hf
    constructor
    · intro h
      exact ⟨rfl, (step_raise ht ((stepResult_of_next ht).symm.trans h)).2⟩
    · rintro ⟨-, hc⟩
      exact stepResult_of_next (step_of_faultCause hf hw hc)

/-- The result of a step does not depend on the draw count: no cause of a fault does. -/
theorem stepResult_withDraws (s : State) (d : Nat) : (s.withDraws d).stepResult = s.stepResult := by
  cases hf : s.fault with
  | some f => rw [stepResult_of_fault hf, stepResult_of_fault (s := s.withDraws d) hf]
  | none =>
    refine Option.ext fun f => ?_
    rw [stepResult_eq_some_iff hf, stepResult_eq_some_iff (s := s.withDraws d) hf]
    cases f <;> rfl

theorem keyDown_withDraws (s : State) (k : Key) (d : Nat) :
    (s.withDraws d).keyDown k = (s.keyDown k).withDraws d := by
  have hkey : (s.withDraws d).getKey k = s.getKey k := rfl
  have hwait : (s.withDraws d).wait = s.wait := rfl
  unfold State.keyDown
  rw [hkey, hwait]
  cases s.getKey k <;> cases s.wait <;> rfl

theorem resetEvent_withDraws (c : Config) (cart : List Byte) (s : State) (d : Nat) :
    (Event.reset c cart).apply (s.withDraws d) = ((Event.reset c cart).apply s).withDraws d := by
  obtain hfit | hlong := le_or_gt cart.length maxCart
  · rw [resetEvent_of_le c hfit, resetEvent_of_le c hfit]
    rfl
  · rw [resetEvent_of_gt c hlong, resetEvent_of_gt c hlong]

/-- Settles O60: the restored machine is the captured one but for the draw count, which only Cxkk looks at. -/
theorem restoreContinuesTheCapturedMachine : Obligations.RestoreContinuesTheCapturedMachine := by
  intro s snapshot
  refine ⟨rfl, stepResult_withDraws snapshot s.draws, fun e hrnd => ?_⟩
  cases e with
  | reset c cart => exact resetEvent_withDraws c cart snapshot s.draws
  | step => exact afterStep_withDraws snapshot s.draws (hrnd rfl)
  | keyDown k => exact keyDown_withDraws snapshot k s.draws
  | tick | keyUp | displayAck | restore => rfl

end Sys2Proof.Machine
